-- ==== Sys2Proof/Word.lean ====
section
/-! DEFINITION. The widths of the values the block moves (00_scope.md R6, R8; 30_encoding.md R60, R67). All values are unsigned. -/

namespace Sys2Proof

/-- An 8-bit value: a bus byte, a command or data byte, a configuration byte (R6 `BUS_WIDTH`). -/
abbrev Byte := BitVec 8

/-- A 4-bit half of a byte (R6 `NIBBLE_WIDTH`, R14). -/
abbrev Nibble := BitVec 4

/-- The active-display mask, one bit per slot (R6 `MASK_WIDTH`, R21). -/
abbrev Mask := BitVec 3

/-- The register-select flag, one bit of the bus byte (R67, R68). -/
abbrev Rs := BitVec 1

/-- One request word `REQ[26:0]` (R6 `REQ_WIDTH`, R60). -/
abbrev Request := BitVec 27

/-- A display slot: 0, 1 or 2 (R6 `NUM_SLOTS`). -/
abbrev Slot := Fin 3

end Sys2Proof
end

