-- ==== Sys2Proof/Config.lean ====
section
/-! DEFINITION. What the spec leaves open: the `OPEN` parameters of 00_scope.md R6 and the values 93_implementation_defined.md treats as `any value`.
Every one is an opaque constant without a body, so a claim about it holds for every value (R6: a model must prove claims for every value). -/

namespace Sys2Proof.Config

/-- `T_EXT`: the least duration of the extended wait (R6, R206; 92 D12; 93 U7). Log entry 5. -/
opaque tExt : Nat

/-- `RESET_ALL_SLOTS`: whether RESET addresses all slots and then narrows to slot 0 (R6, R142; 92 D15; 93 U8; 90 C3). Log entry 6. -/
opaque resetAllSlots : Bool

/-- `T_BIT`, the transport's per-bit delay (R6, R207; 93 U9). Log entry 5. -/
opaque tBit : Nat

/-- `T_CLK`, the transport's clock delay (R6, R207; 93 U9). Log entry 5. -/
opaque tClk : Nat

/-- `T_LATCH`, the transport's latch delay (R6, R207; 93 U9). Log entry 5. -/
opaque tLatch : Nat

/-- How long the transport takes over a commit, from its three delays and the number of events performed before it.
The spec gives no value (R229; 93 U9, U15): any value. Log entry 5. -/
opaque commitTime : Nat → Nat → Nat → Nat → Nat

/-- How much longer than `T_EXT` the wait port takes over a wait, from the number of events performed before it.
It may complete "any time later" (R206; 93 U15): any value. Log entry 5. -/
opaque waitSlack : Nat → Nat

/-- `MASK` at power-on: unspecified (R32), treated as any value (93 U4). Log entry 7. -/
opaque maskPowerOn : Mask

/-- `FS` at power-on: unspecified (R32), treated as any value (93 U4). Log entry 7. -/
opaque fsPowerOn : Byte

/-- `DC` at power-on: unspecified (R32), treated as any value (93 U4). Log entry 7. -/
opaque dcPowerOn : Byte

/-- `EM` at power-on: unspecified (R32), treated as any value (93 U4). Log entry 7. -/
opaque emPowerOn : Byte

/-- The transport's output register at power-on: "a free draw in a model" (R26, R228; 93 U5). Log entry 8. -/
opaque busPowerOn : Byte

end Sys2Proof.Config
end

