-- ==== Sys2Proof/Syntax.lean ====
section
/-! DEFINITION. The requests of the block, one constructor for each row of the opcode table (30_encoding.md R61). -/

namespace Sys2Proof

/-- A decoded request with the operands it uses (R61, R64). The fields a request ignores (R62) are dropped by the decoder. -/
inductive Instr where
  /-- SELECT, `OP = 0b001`: `m = A[2:0]` (43_display_select.md R170). -/
  | select (m : Mask)
  /-- WRITE, `OP = 0b010`: `b = A` (41_command_write.md R122). -/
  | write (b : Byte)
  /-- COMMAND, `OP = 0b011`: `op = A`, `p = B` (41_command_write.md R120). -/
  | command (op p : Byte)
  /-- RESET, `OP = 0b100`: no operand (42_reset_sequencer.md R142). -/
  | reset
  /-- INIT, `OP = 0b101`: `fs = A`, `dc = B`, `em = C` (42_reset_sequencer.md R143). -/
  | init (fs dc em : Byte)
  deriving DecidableEq, Repr

end Sys2Proof
end

