-- ==== Sys2Proof/WellFormed.lean ====
section
/-! DEFINITION. What is well formed: a request (30_encoding.md R63, R70) and a line of the assembler's source (R74, R75). -/

namespace Sys2Proof

/-- Every operand value of a request is legal (R63: "Within the used `OP` values every operand value is legal"; R70), and each
operand's width is in its type, so no request is ill formed. The checks on numbers stand in `Line.wellFormed`. -/
def Instr.wellFormed : Instr → Bool
  | .select _ => true
  | .write _ => true
  | .command _ _ => true
  | .reset => true
  | .init _ _ _ => true

/-- One line of assembler source, its operands as the numbers written there: the five requests (R74) and the
pseudo-instructions (R75). -/
inductive Line where
  | select (m : Nat)
  | write (b : Nat)
  | command (op p : Nat)
  | reset
  | init (fs dc em : Nat)
  /-- `write_text "s"`, with the codes of the characters of `s`. -/
  | writeText (codes : List Nat)
  | clear
  | home
  | entryMode (p : Nat)
  | displayControl (p : Nat)
  | shift (p : Nat)
  | functionSet (p : Nat)
  | setCgram (a : Nat)
  | setDdram (a : Nat)
  | selectAll
  | selectNone
  deriving DecidableEq, Repr

/-- The operand ranges of R74 and R75 (`m` in 0..7, a byte in 0..255, a CGRAM address in 0..63, a DDRAM address in 0..127).
A pseudo-instruction's parameter `p` has the range of COMMAND's, which it expands to. -/
def Line.wellFormed : Line → Bool
  | .select m => decide (m < 8)
  | .write b => decide (b < 256)
  | .command op p => decide (op < 256) && decide (p < 256)
  | .reset => true
  | .init fs dc em => decide (fs < 256) && decide (dc < 256) && decide (em < 256)
  | .writeText codes => codes.all (fun c => decide (c < 256))
  | .clear => true
  | .home => true
  | .entryMode p => decide (p < 256)
  | .displayControl p => decide (p < 256)
  | .shift p => decide (p < 256)
  | .functionSet p => decide (p < 256)
  | .setCgram a => decide (a < 64)
  | .setDdram a => decide (a < 128)
  | .selectAll => true
  | .selectNone => true

end Sys2Proof
end

