-- ==== Sys2Proof/Decode.lean ====
section
/-! DEFINITION. The request word: its fields, its decoder and its encoder (30_encoding.md R60 to R66, R74). -/

namespace Sys2Proof

/-- `OP = REQ[26:24]` (R60). -/
def Request.op (r : Request) : BitVec 3 := r.extractLsb' 24 3

/-- `A = REQ[23:16]` (R60). -/
def Request.fieldA (r : Request) : Byte := r.extractLsb' 16 8

/-- `B = REQ[15:8]` (R60). -/
def Request.fieldB (r : Request) : Byte := r.extractLsb' 8 8

/-- `C = REQ[7:0]` (R60). -/
def Request.fieldC (r : Request) : Byte := r.extractLsb' 0 8

/-- The mask SELECT reads: `A[2:0]`, the bits `A[7:3]` dropped (R64, R170). -/
def maskOfA (a : Byte) : Mask := a.extractLsb' 0 3

/-- The request codes of R61. -/
def opSelect : BitVec 3 := 0b001#3
def opWrite : BitVec 3 := 0b010#3
def opCommand : BitVec 3 := 0b011#3
def opReset : BitVec 3 := 0b100#3
def opInit : BitVec 3 := 0b101#3

/-- What a word decodes to: a request, or Reserved with its code (R66). -/
inductive Decoded where
  | instr (i : Instr)
  | reservedOp (op : BitVec 3)
  deriving DecidableEq, Repr

/-- The decoder, total on 27-bit words. It "reads `OP = REQ[26:24]` and nothing else to know the request" (R65, R66). -/
def decode (r : Request) : Decoded :=
  if r.op = opSelect then .instr (.select (maskOfA r.fieldA))
  else if r.op = opWrite then .instr (.write r.fieldA)
  else if r.op = opCommand then .instr (.command r.fieldA r.fieldB)
  else if r.op = opReset then .instr .reset
  else if r.op = opInit then .instr (.init r.fieldA r.fieldB r.fieldC)
  else .reservedOp r.op

/-- The word with the four given fields: `(OP << 24) | (A << 16) | (B << 8) | C` (R60). -/
def pack (op : BitVec 3) (a b c : Byte) : Request :=
  (op.setWidth 27 <<< 24) ||| (a.setWidth 27 <<< 16) ||| (b.setWidth 27 <<< 8) ||| c.setWidth 27

/-- The encoder, by the table of R74: every ignored field is written as 0. -/
def encode : Instr → Request
  | .select m => pack opSelect (m.setWidth 8) 0#8 0#8
  | .write b => pack opWrite b 0#8 0#8
  | .command op p => pack opCommand op p 0#8
  | .reset => pack opReset 0#8 0#8 0#8
  | .init fs dc em => pack opInit fs dc em

/-- A word the assembler can write: a used `OP`, and 0 in every field the request ignores (R62, R74). -/
def Request.canonical (r : Request) : Bool :=
  if r.op = opSelect then
    decide (r.fieldA.extractLsb' 3 5 = 0#5) && decide (r.fieldB = 0#8) && decide (r.fieldC = 0#8)
  else if r.op = opWrite then decide (r.fieldB = 0#8) && decide (r.fieldC = 0#8)
  else if r.op = opCommand then decide (r.fieldC = 0#8)
  else if r.op = opReset then
    decide (r.fieldA = 0#8) && decide (r.fieldB = 0#8) && decide (r.fieldC = 0#8)
  else decide (r.op = opInit)

/-- The decoder on a word numbered as the opcode table numbers it. A request is 27 bits on one port, not bytes in memory, so
the number is the word itself, and a number of more than 27 bits is no request (R65). Log entry 11. -/
def decodeTableWord (_nbits w : Nat) : Option Instr :=
  if w < 2 ^ 27 then
    match decode (BitVec.ofNat 27 w) with
    | .instr i => some i
    | .reservedOp _ => none
  else none

end Sys2Proof
end

