-- ==== Sys2Proof/Machine/State.lean ====
section
/-! DEFINITION. The block's state (10_state.md R20 to R26, R32), its events (30_encoding.md R73), and the reasons a step stops. -/

namespace Sys2Proof.Machine

/-- The output alphabet (R11, R73): a commit of a bus byte to the transport, or the extended wait. -/
inductive Event where
  | commit (b : Byte)
  | waitExt
  deriving DecidableEq, Repr

/-- The ResetSequencer's states (R24). -/
inductive RState where
  | unknown
  | forcedEightBit
  | fourBitConfirmed
  | configured
  | ready
  deriving DecidableEq, Repr

/-- The state of the block (R20, R211), with the inputs of its ports. -/
structure State where
  /-- `CONSTRUCTED` (R23). -/
  constructed : Bool
  /-- `MASK` (R21). -/
  mask : Mask
  /-- `FS` (R22). -/
  fs : Byte
  /-- `DC` (R22). -/
  dc : Byte
  /-- `EM` (R22). -/
  em : Byte
  /-- `RSTATE` (R24, R141). -/
  rstate : RState
  /-- `PENDING`: the events of the accepted request not yet performed, next first (R25). -/
  pending : List Event
  /-- `BUS`, the transport's output register (R26). -/
  bus : Byte
  /-- The events performed since power-on, in order (R14, R211). -/
  trace : List Event
  /-- The time the transport and wait ports have taken since power-on (R206, R229). Log entry 5. -/
  elapsed : Nat
  /-- The request port's input: the words the host has still to hand over, the presented one first (R207, R209).
A finite list is the model's choice: R73 allows an infinite trace, and no one run of the model has one. Log entry 1. -/
  requests : List Request
  /-- Whether the transport acknowledges commits (R207, R211; 93 U11). Log entry 4. -/
  transportAcks : Bool
  /-- Whether the wait port acknowledges waits (R207, R211). Log entry 4. -/
  waitAcks : Bool
  deriving DecidableEq, Repr

/-- The spec's `stuck` (R211, 93 U11), written as a stop of the step. The block itself raises no exception (R200) and no
request's meaning faults. -/
inductive Fault where
  /-- Raised by the step that performs a commit, when the transport never acknowledges (R211, 93 U11). Safe: no further state is claimed. -/
  | transportSilent
  /-- Raised by the step that performs a wait, when the wait port never acknowledges (R211). Safe: no further state is claimed. -/
  | waitSilent
  deriving DecidableEq, Repr

/-- Requests to which the spec gives no meaning: the run is marked refused for good (R12, R202). -/
inductive Refusal where
  /-- `OP` is `0b000`, `0b110` or `0b111` (R63, R202 row 2; 93 U1). Raised by the step after decoding. Safe: a refused run has no next state. -/
  | reservedOp (op : BitVec 3)
  /-- A request other than INIT before INIT (R202 row 3; 93 U2). Raised by SELECT, WRITE, COMMAND and RESET. Safe. -/
  | notConstructed
  /-- INIT after INIT (R202 row 4; 93 U3). Raised by INIT. Safe. -/
  | alreadyConstructed
  /-- An instruction without a meaning in this model. Raised by no arm. Safe. -/
  | notModelled (mnemonic : String)
  deriving DecidableEq, Repr

/-- Power-on, the block's only reset (R32, R221). `MASK`, `FS`, `DC`, `EM` and `BUS` hold opaque values: the spec gives none and
treats each as any value (93 U4, U5; log entries 7, 8). The ports acknowledge (log entry 4) and no request is presented. -/
def State.reset : State where
  constructed := false
  mask := Config.maskPowerOn
  fs := Config.fsPowerOn
  dc := Config.dcPowerOn
  em := Config.emPowerOn
  rstate := .unknown
  pending := []
  bus := Config.busPowerOn
  trace := []
  elapsed := 0
  requests := []
  transportAcks := true
  waitAcks := true

end Sys2Proof.Machine
end

