-- ==== Sys2Proof/Machine/Operands.lean ====
section
/-! DEFINITION. The values the block computes with: the constants it emits, the bus byte, the nibbles of a byte and the command
byte (00_scope.md R6; 30_encoding.md R67, R68, R71; 41_command_write.md R120, R124). -/

namespace Sys2Proof.Machine

/-- `RS_CMD` (R68). -/
def rsCmd : Rs := 0#1

/-- `RS_DATA` (R68). -/
def rsData : Rs := 1#1

/-- `ALL_MASK` (R6). -/
def allMask : Mask := 0b111#3

/-- `DEFAULT_MASK`, slot 0 only (R6). -/
def defaultMask : Mask := 0b001#3

/-- The mask value for "no display enabled" (R69). -/
def noMask : Mask := 0b000#3

/-- `OP_CLEAR` (R71). -/
def opClear : Byte := 0x01#8

/-- `OP_HOME` (R71). -/
def opHome : Byte := 0x02#8

/-- `OP_ENTRY_MODE` (R71). -/
def opEntryMode : Byte := 0x04#8

/-- `OP_DISPLAY_CONTROL` (R71). -/
def opDisplayControl : Byte := 0x08#8

/-- `OP_FUNCTION_SET` (R71). -/
def opFunctionSet : Byte := 0x20#8

/-- `NIB_8BIT` (R71). -/
def nib8Bit : Byte := 0x3#8

/-- `NIB_4BIT` (R71). -/
def nib4Bit : Byte := 0x2#8

/-- The bus byte `(en << 5) | (rs << 4) | (v & 0xF)` (R67, R100). -/
def busByte (en : Mask) (rs : Rs) (v : Byte) : Byte :=
  (en.setWidth 8 <<< 5) ||| (rs.setWidth 8 <<< 4) ||| (v &&& 0xF#8)

/-- The enable field of a bus byte, bits 7:5; bit `k` is slot `k` (R67). -/
def enableField (b : Byte) : Mask := b.extractLsb' 5 3

/-- The register-select bit of a bus byte, bit 4 (R67). -/
def rsField (b : Byte) : Rs := b.extractLsb' 4 1

/-- The data bits of a bus byte, bits 3:0 (R67). -/
def dataField (b : Byte) : Nibble := b.extractLsb' 0 4

/-- Bits 4:0 of a bus byte: register-select and data, without the enables (R67). -/
def payloadField (b : Byte) : BitVec 5 := b.extractLsb' 0 5

/-- `b >> 4`, the nibble sent first (R42, R102). -/
def highNibble (b : Byte) : Byte := b >>> 4

/-- `b & 0xF`, the nibble sent second (R42, R102). -/
def lowNibble (b : Byte) : Byte := b &&& 0xF#8

/-- The command byte `op | p`: bitwise OR, not a sum (R120, R124; 90 C7). -/
def commandByte (op p : Byte) : Byte := op ||| p

end Sys2Proof.Machine
end

