-- ==== Sys2Proof/Machine/Flags.lean ====
section
/-! DEFINITION. The one-bit conditions. The block has no condition codes (10_state.md R28); what it has are the derived `BUSY`, the
signals of the three ports (60_exceptions.md R207) and the extended-wait predicate (41_command_write.md R121). -/

namespace Sys2Proof.Machine

/-- `isLong(op)`: equality of the whole opcode operand with clear or home (R121). -/
def isLong (op : Byte) : Bool := decide (op = opClear) || decide (op = opHome)

/-- `BUSY = (PENDING != [])` (R25). -/
def State.busy (s : State) : Bool := !s.pending.isEmpty

/-- `req_ready = not BUSY` (R25, R207). -/
def State.reqReady (s : State) : Bool := !s.busy

/-- `req_valid`: the host presents a word (R207). -/
def State.reqValid (s : State) : Bool := !s.requests.isEmpty

/-- `commit_req` with `bus_out`: the byte presented to the transport, if the next event is a commit (R207). -/
def State.busOut (s : State) : Option Byte :=
  match s.pending with
  | .commit b :: _ => some b
  | .waitExt :: _ => none
  | [] => none

/-- `wait_req`: the next event is the extended wait (R207). -/
def State.waitReq (s : State) : Bool :=
  match s.pending with
  | .commit _ :: _ => false
  | .waitExt :: _ => true
  | [] => false

end Sys2Proof.Machine
end

