-- ==== Sys2Proof/Machine/Ops.lean ====
section
/-! DEFINITION. The shared operations: the register updates, the admission of a request (60_exceptions.md R202), its acceptance, and
the performing of an event (R211). The block has no memory (20_memory.md R40) and no exception to take or return from (60_exceptions.md
R200, R204), so neither has an operation here. -/

namespace Sys2Proof.Machine

/-- `MASK <- m` (R170). -/
def State.setMask (s : State) (m : Mask) : State := { s with mask := m }

/-- The register writes of INIT: `FS`, `DC`, `EM`, `RSTATE`, `MASK`, `CONSTRUCTED` (R143). -/
def State.construct (s : State) (fs dc em : Byte) : State :=
  { s with
    fs := fs, dc := dc, em := em, rstate := .unknown, mask := defaultMask, constructed := true }

/-- The register writes of RESET: `RSTATE <- Unknown`, and `MASK` narrowed when it addresses all slots (R142). -/
def State.restart (s : State) (allSlots : Bool) : State :=
  { s with rstate := .unknown, mask := if allSlots then defaultMask else s.mask }

/-- The presented word is consumed and its events become `PENDING` (R25, R207, R211). -/
def State.issue (s : State) (evs : List Event) : State :=
  { s with pending := evs, requests := s.requests.tail }

/-- How many events of the reset body are left when the first `n` have been performed: the body has 30 (R144). -/
def bodyLeft (n : Nat) : Nat := 30 - n

/-- `RSTATE` when an event has been performed and `left` events of `PENDING` remain: it moves at events 6, 8, 20 and 30 of the
reset body (R141). Log entry 9. -/
def RState.advance (r : RState) (left : Nat) : RState :=
  match r with
  | .unknown => if left = bodyLeft 6 then .forcedEightBit else .unknown
  | .forcedEightBit => if left = bodyLeft 8 then .fourBitConfirmed else .forcedEightBit
  | .fourBitConfirmed => if left = bodyLeft 20 then .configured else .fourBitConfirmed
  | .configured => if left = bodyLeft 30 then .ready else .configured
  | .ready => .ready

/-- The bus after an event: a commit replaces all eight bits, a wait none (R26, R41). -/
def Event.busAfter (e : Event) (bus : Byte) : Byte :=
  match e with
  | .commit b => b
  | .waitExt => bus

/-- How long the port takes over an event, `n` events having been performed before it. A wait takes at least `T_EXT`
(R206, R229). Log entry 5. -/
def Event.duration (e : Event) (n : Nat) : Nat :=
  match e with
  | .commit _ => Config.commitTime Config.tBit Config.tClk Config.tLatch n
  | .waitExt => Config.tExt + Config.waitSlack n

/-- The state when the port has completed the event `e`, with `rest` still to perform (R211 Perform). -/
def State.complete (s : State) (e : Event) (rest : List Event) : State :=
  { s with
    pending := rest
    trace := s.trace ++ [e]
    bus := e.busAfter s.bus
    rstate := s.rstate.advance rest.length
    elapsed := s.elapsed + e.duration s.trace.length }

/-- One performed event. A port that never acknowledges leaves the run stuck (R211, 93 U11). -/
def perform (e : Event) (rest : List Event) (s : State) : Host.Outcome State Fault Refusal :=
  match e with
  | .commit b => if s.transportAcks then .next (s.complete (.commit b) rest) else .fault .transportSilent
  | .waitExt => if s.waitAcks then .next (s.complete .waitExt rest) else .fault .waitSilent

/-- What becomes of a decoded request (R202). -/
inductive Admission where
  | held
  | refused (r : Refusal)
  | accepted
  deriving DecidableEq, Repr

/-- Rows 1, 3, 4 and 5 of R202, in their order; row 2, the reserved codes, is the decoder's. -/
def State.admission (s : State) (isInit : Bool) : Admission :=
  if s.busy then .held
  else if !isInit && !s.constructed then .refused .notConstructed
  else if isInit && s.constructed then .refused .alreadyConstructed
  else .accepted

/-- A request through its admission: held it changes nothing and stays on the port; accepted it makes its register writes and
its events become `PENDING`, none yet performed (R202, R211 Accept). -/
def accept (isInit : Bool) (regs : State → State) (evs : List Event) (s : State) :
    Host.Outcome State Fault Refusal :=
  match s.admission isInit with
  | .held => .next s
  | .refused r => .refused r
  | .accepted => .next ((regs s).issue evs)

/-- What the block can do next: exactly one of R211's steps, or nothing when it is idle and no word is presented. -/
inductive Phase where
  | performing (e : Event) (rest : List Event)
  | presented (r : Request)
  | idle
  deriving DecidableEq, Repr

/-- Events of the request in flight come before the word on the port (R202 row 1, R211). -/
def State.phase (s : State) : Phase :=
  match s.pending with
  | e :: rest => .performing e rest
  | [] =>
    match s.requests with
    | r :: _ => .presented r
    | [] => .idle

/-- "An idle block keeps all its state indefinitely" (R210). Log entry 2. -/
def idleStep (s : State) : Host.Outcome State Fault Refusal := .next s

/-- `refuse ReservedOp` (R63, R202 row 2). -/
def refuseReserved (op : BitVec 3) : Host.Outcome State Fault Refusal := .refused (.reservedOp op)

/-- The host presents the word `w` next, at a moment when no event is pending (R207, R209). Log entries 1 and 12. -/
def State.present (s : State) (w : Nat) : State :=
  { s with requests := BitVec.ofNat 27 w :: s.requests, pending := [] }

end Sys2Proof.Machine
end

