-- ==== Sys2Proof/Machine/DisplaySelect.lean ====
section
/-! DEFINITION. DisplaySelector (43_display_select.md R170). -/

namespace Sys2Proof.Machine

/-- `SELECT(m)`: the mask is replaced and there is no event (R170). -/
def execSelect (m : Mask) (s : State) : Host.Outcome State Fault Refusal :=
  accept false (fun t => t.setMask m) [] s

end Sys2Proof.Machine
end

