-- ==== Sys2Proof/Machine/NibbleByte.lean ====
section
/-! DEFINITION. NibbleEncoder and ByteWriter (40_nibble_byte.md R100 to R103). -/

namespace Sys2Proof.Machine

/-- `nib(v, rs, m)`: phase 1 with the enables of `m` high, phase 2 with them low (R100). -/
def nib (v : Byte) (rs : Rs) (m : Mask) : List Event :=
  [.commit (busByte m rs v), .commit (busByte noMask rs v)]

/-- `byteEv(b, rs, m)`: two nibble transfers, high nibble first (R102). -/
def byteEv (b : Byte) (rs : Rs) (m : Mask) : List Event :=
  nib (highNibble b) rs m ++ nib (lowNibble b) rs m

end Sys2Proof.Machine
end

