-- ==== Sys2Proof/Machine/CommandWrite.lean ====
section
/-! DEFINITION. CommandDispatcher and the text write path (41_command_write.md R120 to R123). -/

namespace Sys2Proof.Machine

/-- `cmdEv(op, p, m)`: the byte `op | p` as a command, and the extended wait after clear and home (R120, R121). -/
def cmdEv (op p : Byte) (m : Mask) : List Event :=
  byteEv (commandByte op p) rsCmd m ++ (if isLong op then [.waitExt] else [])

/-- `COMMAND(op, p)` (R120). -/
def execCommand (op p : Byte) (s : State) : Host.Outcome State Fault Refusal :=
  accept false id (cmdEv op p s.mask) s

/-- `WRITE(b)` (R122). -/
def execWrite (b : Byte) (s : State) : Host.Outcome State Fault Refusal :=
  accept false id (byteEv b rsData s.mask) s

end Sys2Proof.Machine
end

