-- ==== Sys2Proof/Machine/ResetSequencer.lean ====
section
/-! DEFINITION. ResetSequencer and session construction (42_reset_sequencer.md R140 to R145). -/

namespace Sys2Proof.Machine

/-- `resetBody(m, fs, dc, em)` (R140). The configuration bytes are OR-ed in unmasked (R145). -/
def resetBody (m : Mask) (fs dc em : Byte) : List Event :=
  nib nib8Bit rsCmd m ++ nib nib8Bit rsCmd m ++ nib nib8Bit rsCmd m
    ++ nib nib4Bit rsCmd m
    ++ cmdEv opFunctionSet fs m
    ++ cmdEv opDisplayControl dc m
    ++ cmdEv opEntryMode em m
    ++ cmdEv opClear 0#8 m
    ++ cmdEv opHome 0#8 m

/-- RESET for a given value of `RESET_ALL_SLOTS` (R142). -/
def resetRequest (allSlots : Bool) (s : State) : Host.Outcome State Fault Refusal :=
  accept false (fun t => t.restart allSlots)
    (resetBody (if allSlots then allMask else s.mask) s.fs s.dc s.em) s

/-- `RESET()` (R142), `RESET_ALL_SLOTS` being the open parameter. Log entry 6. -/
def execReset (s : State) : Host.Outcome State Fault Refusal :=
  resetRequest Config.resetAllSlots s

/-- `INIT(fs, dc, em)` (R143). -/
def execInit (fs dc em : Byte) (s : State) : Host.Outcome State Fault Refusal :=
  accept true (fun t => t.construct fs dc em) (resetBody allMask fs dc em) s

end Sys2Proof.Machine
end

