-- ==== Sys2Proof/Machine/Dispatch.lean ====
section
/-! DEFINITION. One arm for each request of the opcode table (30_encoding.md R61). -/

namespace Sys2Proof.Machine

def exec (i : Instr) (s : State) : Host.Outcome State Fault Refusal :=
  match i with
  | .select m => Sys2Proof.Machine.execSelect m s
  | .write b => Sys2Proof.Machine.execWrite b s
  | .command op p => Sys2Proof.Machine.execCommand op p s
  | .reset => Sys2Proof.Machine.execReset s
  | .init fs dc em => Sys2Proof.Machine.execInit fs dc em s

end Sys2Proof.Machine
end

