-- ==== Sys2Proof/Machine/Step.lean ====
section
/-! DEFINITION. The step (60_exceptions.md R211): perform the next pending event, or take the presented request through decoding and
admission, or stay idle. -/

namespace Sys2Proof.Machine

/-- R202 and R211: while an event is pending the word on the port is held; then it is decoded, refused if its code is reserved,
and otherwise run. -/
def step (s : State) : Host.Outcome State Fault Refusal :=
  match s.phase with
  | .performing e rest => perform e rest s
  | .presented r =>
    match decode r with
    | .instr i => exec i s
    | .reservedOp op => refuseReserved op
  | .idle => idleStep s

/-- The host presents the word `w` of the opcode table's numbering to the block, which takes it next. Log entries 1 and 12. -/
def State.withFetchWord (s : State) (_nbits w : Nat) : State := s.present w

end Sys2Proof.Machine
end

