-- ==== Sys2Proof/Machine/Assembler.lean ====
section
/-! DEFINITION. The assembler that writes request words (30_encoding.md R74, R75): the expansion of a source line into requests, and the
reading of a line's characters. -/

namespace Sys2Proof.Machine

/-- The opcodes of R72 that only the pseudo-instructions use (R75; 92 D28). -/
def opShift : Byte := 0x10#8
def opSetCgram : Byte := 0x40#8
def opSetDdram : Byte := 0x80#8

/-- The requests of a line (R74, R75). The operands are taken to their fields' widths; `Line.expand` lets only those in range through. -/
def Line.requests : Line → List Instr
  | .select m => [.select (BitVec.ofNat 3 m)]
  | .write b => [.write (BitVec.ofNat 8 b)]
  | .command op p => [.command (BitVec.ofNat 8 op) (BitVec.ofNat 8 p)]
  | .reset => [.reset]
  | .init fs dc em => [.init (BitVec.ofNat 8 fs) (BitVec.ofNat 8 dc) (BitVec.ofNat 8 em)]
  | .writeText codes => codes.map (fun c => .write (BitVec.ofNat 8 c))
  | .clear => [.command opClear 0#8]
  | .home => [.command opHome 0#8]
  | .entryMode p => [.command opEntryMode (BitVec.ofNat 8 p)]
  | .displayControl p => [.command opDisplayControl (BitVec.ofNat 8 p)]
  | .shift p => [.command opShift (BitVec.ofNat 8 p)]
  | .functionSet p => [.command opFunctionSet (BitVec.ofNat 8 p)]
  | .setCgram a => [.command opSetCgram (BitVec.ofNat 8 a)]
  | .setDdram a => [.command opSetDdram (BitVec.ofNat 8 a)]
  | .selectAll => [.select allMask]
  | .selectNone => [.select noMask]

/-- The assembler "refuses an operand outside its range (so `select 8` is refused, not truncated)" (R74). -/
def Line.expand (l : Line) : Option (List Instr) :=
  if l.wellFormed then some (Line.requests l) else none

/-- The request words of a line (R74). -/
def Line.assemble (l : Line) : Option (List Request) :=
  (Line.expand l).map (fun is => is.map encode)

/-- What a line's characters are cut into. -/
inductive Token where
  | word (cs : List Char)
  | charLit (c : Char)
  | text (cs : List Char)
  | comma
  deriving DecidableEq, Repr

/-- Where the reader stands in a line. -/
inductive LexMode where
  | between
  | inWord (acc : List Char)
  | quoteOpened
  | quoteHolds (c : Char)
  | inText (acc : List Char)
  deriving DecidableEq, Repr

def isBlank (c : Char) : Bool := c = ' ' || c = '\t'

/-- The single and the double quotation mark. -/
def singleQuote : Char := Char.ofNat 39
def doubleQuote : Char := Char.ofNat 34

/-- The tokens of a line; `;` starts a comment (R74). That it starts none inside a quoted character or text, and that there are no
escapes there (a backslash is a character like any other, the next double quotation mark ends a text and one character stands between
single ones), is the model's choice. Log entry 13. -/
def lex : LexMode → List Char → Option (List Token)
  | .between, [] => some []
  | .inWord acc, [] => some [.word acc.reverse]
  | .quoteOpened, [] => none
  | .quoteHolds _, [] => none
  | .inText _, [] => none
  | .between, c :: cs =>
    if c = ';' then some []
    else if isBlank c then lex .between cs
    else if c = ',' then (lex .between cs).map (Token.comma :: ·)
    else if c = singleQuote then lex .quoteOpened cs
    else if c = doubleQuote then lex (.inText []) cs
    else lex (.inWord [c]) cs
  | .inWord acc, c :: cs =>
    if c = ';' then some [.word acc.reverse]
    else if isBlank c then (lex .between cs).map (Token.word acc.reverse :: ·)
    else if c = ',' then (lex .between cs).map (fun ts => Token.word acc.reverse :: Token.comma :: ts)
    else if c = singleQuote || c = doubleQuote then none
    else lex (.inWord (c :: acc)) cs
  | .quoteOpened, c :: cs => lex (.quoteHolds c) cs
  | .quoteHolds a, c :: cs =>
    if c = singleQuote then (lex .between cs).map (Token.charLit a :: ·) else none
  | .inText acc, c :: cs =>
    if c = doubleQuote then (lex .between cs).map (Token.text acc.reverse :: ·)
    else lex (.inText (c :: acc)) cs

/-- The value of a digit, in any base up to 16. -/
def digitValue (c : Char) : Option Nat :=
  if '0' ≤ c ∧ c ≤ '9' then some (c.toNat - 48)
  else if 'a' ≤ c ∧ c ≤ 'f' then some (c.toNat - 87)
  else if 'A' ≤ c ∧ c ≤ 'F' then some (c.toNat - 55)
  else none

/-- The digits read so far are worth `acc`. -/
def readDigits (base acc : Nat) : List Char → Option Nat
  | [] => some acc
  | c :: cs =>
    match digitValue c with
    | some d => if d < base then readDigits base (acc * base + d) cs else none
    | none => none

/-- "Numbers are decimal, `0x` hexadecimal or `0b` binary" (R74). -/
def readNumber : List Char → Option Nat
  | [] => none
  | ['0', 'x'] => none
  | ['0', 'b'] => none
  | '0' :: 'x' :: ds => readDigits 16 0 ds
  | '0' :: 'b' :: ds => readDigits 2 0 ds
  | ds => readDigits 10 0 ds

/-- An operand: a number, or a quoted character standing for its ASCII code (R74). For a character without one the model chooses its
code point, which the operand's range then admits (128 to 255 for a byte) or refuses. Log entry 13. -/
def operandValue : Token → Option Nat
  | .word cs => readNumber cs
  | .charLit c => some c.toNat
  | .text _ => none
  | .comma => none

/-- "Operands separated by commas" (R74). -/
def readOperands : List Token → Option (List Nat)
  | [] => some []
  | [t] => (operandValue t).map ([·])
  | t :: .comma :: u :: ts =>
    match operandValue t, readOperands (u :: ts) with
    | some v, some vs => some (v :: vs)
    | _, _ => none
  | _ :: _ :: _ => none

/-- The request mnemonics (R74). -/
def coreLine (name : List Char) (ops : List Nat) : Option Line :=
  match ops with
  | [] => if name = ['r', 'e', 's', 'e', 't'] then some .reset else none
  | [a] =>
    if name = ['s', 'e', 'l', 'e', 'c', 't'] then some (.select a)
    else if name = ['w', 'r', 'i', 't', 'e'] then some (.write a)
    else none
  | [a, b] => if name = ['c', 'o', 'm', 'm', 'a', 'n', 'd'] then some (.command a b) else none
  | [a, b, c] => if name = ['i', 'n', 'i', 't'] then some (.init a b c) else none
  | _ => none

/-- The pseudo-instruction mnemonics but `write_text` (R75). -/
def pseudoLine (name : List Char) (ops : List Nat) : Option Line :=
  match ops with
  | [] =>
    if name = ['c', 'l', 'e', 'a', 'r'] then some .clear
    else if name = ['h', 'o', 'm', 'e'] then some .home
    else if name = ['s', 'e', 'l', 'e', 'c', 't', '_', 'a', 'l', 'l'] then some .selectAll
    else if name = ['s', 'e', 'l', 'e', 'c', 't', '_', 'n', 'o', 'n', 'e'] then some .selectNone
    else none
  | [p] =>
    if name = ['e', 'n', 't', 'r', 'y', '_', 'm', 'o', 'd', 'e'] then some (.entryMode p)
    else if name = ['d', 'i', 's', 'p', 'l', 'a', 'y', '_', 'c', 'o', 'n', 't', 'r', 'o', 'l'] then
      some (.displayControl p)
    else if name = ['s', 'h', 'i', 'f', 't'] then some (.shift p)
    else if name = ['f', 'u', 'n', 'c', 't', 'i', 'o', 'n', '_', 's', 'e', 't'] then some (.functionSet p)
    else if name = ['s', 'e', 't', '_', 'c', 'g', 'r', 'a', 'm'] then some (.setCgram p)
    else if name = ['s', 'e', 't', '_', 'd', 'd', 'r', 'a', 'm'] then some (.setDdram p)
    else none
  | _ => none

/-- A line's tokens, "mnemonic first" (R74); `none` inside for a line that holds no request. -/
def lineOfTokens : List Token → Option (Option Line)
  | [] => some none
  | [.word name, .text cs] =>
    if name = ['w', 'r', 'i', 't', 'e', '_', 't', 'e', 'x', 't'] then
      some (some (.writeText (cs.map Char.toNat)))
    else none
  | .word name :: ts =>
    match readOperands ts with
    | some ops => ((coreLine name ops).orElse (fun _ => pseudoLine name ops)).map some
    | none => none
  | _ :: _ => none

/-- A line of characters; `none` where it is not of R74's form. -/
def parseLine (cs : List Char) : Option (Option Line) :=
  match lex .between cs with
  | some ts => lineOfTokens ts
  | none => none

/-- The request words of one line of characters: none for an empty or comment line (R74). -/
def assembleLine (cs : List Char) : Option (List Request) :=
  match parseLine cs with
  | some none => some []
  | some (some l) => Line.assemble l
  | none => none

/-- The request words of a source text, one request or pseudo-instruction a line (R74); `none` if any line is refused. -/
def assembleSource : List (List Char) → Option (List Request)
  | [] => some []
  | l :: ls =>
    match assembleLine l, assembleSource ls with
    | some ws, some more => some (ws ++ more)
    | _, _ => none

end Sys2Proof.Machine
end

