-- ==== Sys2Proof/Machine/Observer.lean ====
section
/-! DEFINITION. The reference observer of the displays' input side (40_nibble_byte.md R104). It is not state of the block (10_state.md
R31): what a slot has latched is computed from the bus value before a list of events and the events. -/

namespace Sys2Proof.Machine

/-- What a slot latches: the pair `(rs, d)` (R104). -/
structure Latch where
  rs : Rs
  d : Nibble
  deriving DecidableEq, Repr

/-- The enable line of slot `k`: bus bit `5 + k` (R67, R69). -/
def enableLine (k : Slot) (bus : Byte) : Bool := bus.getLsbD (5 + k.val)

/-- Slot `k` latches `(BUS[4], BUS[3:0])` of the value held before a commit that takes its enable line from 1 to 0 (R104). -/
def latchAt (k : Slot) (before after : Byte) : Option Latch :=
  if enableLine k before && !enableLine k after then some ⟨rsField before, dataField before⟩ else none

/-- What slot `k` latches, in order, while the events are performed from the bus value `bus` (R104). -/
def receives (k : Slot) : Byte → List Event → List Latch
  | _, [] => []
  | bus, .commit b :: es => (latchAt k bus b).toList ++ receives k b es
  | bus, .waitExt :: es => receives k bus es

/-- The bus value after the events, performed from the bus value `bus` (R26). -/
def busAfterAll (bus : Byte) (es : List Event) : Byte := es.foldl (fun b e => e.busAfter b) bus

/-- The two nibbles of a byte as a slot receives them, high first (R42, R102, R104). -/
def byteLatches (b : Byte) (rs : Rs) : List Latch :=
  [⟨rs, b.extractLsb' 4 4⟩, ⟨rs, b.extractLsb' 0 4⟩]

/-- The fourteen nibbles of the reset body as a slot receives them: four single nibbles, then five bytes (R140, R144). -/
def bodyLatches (fs dc em : Byte) : List Latch :=
  [⟨rsCmd, 0x3#4⟩, ⟨rsCmd, 0x3#4⟩, ⟨rsCmd, 0x3#4⟩, ⟨rsCmd, 0x2#4⟩]
    ++ byteLatches (commandByte opFunctionSet fs) rsCmd
    ++ byteLatches (commandByte opDisplayControl dc) rsCmd
    ++ byteLatches (commandByte opEntryMode em) rsCmd
    ++ byteLatches opClear rsCmd
    ++ byteLatches opHome rsCmd

/-- What slot `k` has latched since power-on (R104, R228). -/
def State.received (s : State) (k : Slot) : List Latch := receives k Config.busPowerOn s.trace

end Sys2Proof.Machine
end

