-- ==== Sys2Proof/Safety.lean ====
section
/-! DEFINITION. What claims about runs are stated in: the end of a run (60_exceptions.md R211) and the invariants of 10_state.md R34, R26
and 40_nibble_byte.md R104. -/

namespace Sys2Proof.Machine

/-- The run is finished: the host has no further request and `PENDING = []` (R211). -/
def State.finished (s : State) : Bool := s.requests.isEmpty && s.pending.isEmpty

/-- `n` steps of the machine, stopping at the first fault or refusal. -/
def runs (n : Nat) (s : State) : Host.Outcome State Fault Refusal := Host.Core.run Sys2Proof.core n s

/-- The events a request becomes when it is accepted in the state `s` (R13 `expand`, R120, R122, R142, R143, R170). -/
def eventsOf (i : Instr) (s : State) : List Event :=
  match i with
  | .select _ => []
  | .write b => byteEv b rsData s.mask
  | .command op p => cmdEv op p s.mask
  | .reset => resetBody (if Config.resetAllSlots then allMask else s.mask) s.fs s.dc s.em
  | .init fs dc em => resetBody allMask fs dc em

/-- How many commits a request makes (R229). -/
def commitCount (i : Instr) : Nat :=
  match i with
  | .select _ => 0
  | .write _ => 4
  | .command _ _ => 4
  | .reset => 28
  | .init _ _ _ => 28

/-- How many extended waits a request makes (R229). -/
def waitCount (i : Instr) : Nat :=
  match i with
  | .select _ => 0
  | .write _ => 0
  | .command op _ => if op = 0x01#8 ∨ op = 0x02#8 then 1 else 0
  | .reset => 2
  | .init _ _ _ => 2

/-- Whether a request is one that the session's existence asks for: INIT before it, the others after it (R202 rows 3 to 5). -/
def admits (i : Instr) (s : State) : Prop :=
  match i with
  | .init _ _ _ => s.constructed = false
  | .select _ => s.constructed = true
  | .write _ => s.constructed = true
  | .command _ _ => s.constructed = true
  | .reset => s.constructed = true

/-- Both ports acknowledge: the fairness of R211. -/
def State.fair (s : State) : Prop := s.transportAcks = true ∧ s.waitAcks = true

/-- The port that would complete the event acknowledges (the fairness of R211). -/
def State.acks (s : State) (e : Event) : Bool :=
  match e with
  | .commit _ => s.transportAcks
  | .waitExt => s.waitAcks

/-- `RSTATE` when `left` events of the reset body remain (R141). -/
def bodyRState (left : Nat) : RState :=
  if left = 0 then .ready
  else if left ≤ 10 then .configured
  else if left ≤ 22 then .fourBitConfirmed
  else if left ≤ 24 then .forcedEightBit
  else .unknown

/-- The events left are those of a WRITE or COMMAND accepted under the mask in force (R34 (e), R120, R122). -/
def State.sendingByte (s : State) : Prop :=
  (∃ b, s.pending <:+ byteEv b rsData s.mask) ∨ (∃ op p, s.pending <:+ cmdEv op p s.mask)

/-- The events left are those of a reset body run with the stored configuration, against the mask in force or against all slots
with the mask narrowed (R34 (e), R142, R143). -/
def State.runningBody (s : State) : Prop :=
  s.pending <:+ resetBody s.mask s.fs s.dc s.em ∨
    (s.mask = defaultMask ∧ s.pending <:+ resetBody allMask s.fs s.dc s.em)

/-- What R34 (d) and (e), R32 and R141 say of a state between two steps: before INIT nothing is in flight and `RSTATE` is `Unknown`;
after it, the pending events are the rest of one request's and `RSTATE` tells how far a reset body has come. -/
def State.sequenced (s : State) : Prop :=
  (s.constructed = true →
    (s.sendingByte ∧ s.rstate = .ready) ∨ (s.runningBody ∧ s.rstate = bodyRState s.pending.length)) ∧
  (s.constructed = false → s.pending = [] ∧ s.rstate = .unknown)

/-- The commits among some events, in order. -/
def commitsIn (es : List Event) : List Byte :=
  es.filterMap (fun e => match e with | .commit b => some b | .waitExt => none)

/-- The byte of the last commit of a trace, or `b0` before the first (R26, R54). -/
def lastCommit (b0 : Byte) (t : List Event) : Byte := (commitsIn t).getLastD b0

/-- `BUS` holds the last committed value, `b0` standing for its power-on value (R26, R54). -/
def State.busFollowsTrace (b0 : Byte) (s : State) : Prop := s.bus = lastCommit b0 s.trace

/-- Whole nibble transfers and waits: every phase-1 commit is followed at once by its phase 2, the same byte with the enables low
(R100, R101). -/
def wholeNibbles : List Event → Bool
  | [] => true
  | .waitExt :: es => wholeNibbles es
  | [.commit _] => false
  | .commit _ :: .waitExt :: _ => false
  | .commit b1 :: .commit b2 :: es => decide (b2 = b1 &&& 0x1F#8) && wholeNibbles es

/-- The bus between two steps of a session: at rest with every enable low, or holding a phase 1 whose phase 2 comes next, or still
at its power-on value with all of INIT's body to come (R104, R228). -/
def State.edgesIntended (s : State) : Prop :=
  s.constructed = true →
    (wholeNibbles s.pending = true ∧ enableField s.bus = noMask) ∨
    (∃ rest, s.pending = .commit (s.bus &&& 0x1F#8) :: rest ∧ wholeNibbles rest = true) ∨
    (∃ rest, s.pending = nib nib8Bit rsCmd allMask ++ rest ∧ wholeNibbles rest = true)

/-- The state with another `RSTATE` (R24: nothing reads it). -/
def State.withRState (s : State) (r : RState) : State := { s with rstate := r }

/-- The state with another value on the bus (R30: the block has no read-back). -/
def State.withBus (s : State) (b : Byte) : State := { s with bus := b }

/-- The state with other values in the registers R32 leaves unspecified. -/
def State.withUnspecified (s : State) (m : Mask) (fs dc em : Byte) : State :=
  { s with mask := m, fs := fs, dc := dc, em := em }

/-- An outcome with its next state changed by `f`; a fault or refusal is as it was. -/
def mapNext (f : State → State) (o : Host.Outcome State Fault Refusal) : Host.Outcome State Fault Refusal :=
  match o with
  | .next t => .next (f t)
  | .fault r => .fault r
  | .refused r => .refused r

/-- How many extended waits are among some events. -/
def waitsIn (es : List Event) : Nat := es.count .waitExt

end Sys2Proof.Machine
end

