-- ==== Sys2Proof/Certificates/Slice0/Obligations.lean ====
section
/-! DEFINITION. The statements for the provers. A rule of the spec marked `[decision: …]` there defines this hardware and is cited as a
rule. A statement that rests on a choice of the model's own names its log entry. -/

open Sys2Proof Sys2Proof.Machine

/-! ### The request word -/

/-- R60: the word is the number `(OP << 24) | (A << 16) | (B << 8) | C`, and its four fields read back. -/
def Obligations.RequestWordHoldsItsFields : Prop :=
  ∀ (op : BitVec 3) (a b c : Byte),
    (pack op a b c).toNat = op.toNat * 2 ^ 24 + a.toNat * 2 ^ 16 + b.toNat * 2 ^ 8 + c.toNat ∧
    Request.op (pack op a b c) = op ∧ Request.fieldA (pack op a b c) = a ∧
    Request.fieldB (pack op a b c) = b ∧ Request.fieldC (pack op a b c) = c

/-- R61, R64, R74: decoding an encoded request gives the request back, with every operand. -/
def Obligations.DecodeOfEncodeIsTheRequest : Prop :=
  ∀ i : Instr, i.wellFormed = true → decode (encode i) = .instr i ∧ (encode i).canonical = true

/-- R61, R74: a word whose ignored fields are 0 is the encoding of what it decodes to. -/
def Obligations.EncodeOfDecodeIsTheWord : Prop :=
  ∀ (r : Request) (i : Instr), r.canonical = true → decode r = .instr i → encode i = r

/-- R61, R64, R66: what each of the eight codes decodes to, the fields unsigned and raw; every word is the packing of its fields, so
no word is left out. -/
def Obligations.DecodeReadsTheFields : Prop :=
  (∀ r : Request, pack r.op r.fieldA r.fieldB r.fieldC = r) ∧
  ∀ (a b c : Byte),
    decode (pack 1#3 a b c) = .instr (.select (BitVec.ofNat 3 (a.toNat % 8))) ∧
    decode (pack 2#3 a b c) = .instr (.write a) ∧
    decode (pack 3#3 a b c) = .instr (.command a b) ∧
    decode (pack 4#3 a b c) = .instr .reset ∧
    decode (pack 5#3 a b c) = .instr (.init a b c) ∧
    decode (pack 0#3 a b c) = .reservedOp 0#3 ∧
    decode (pack 6#3 a b c) = .reservedOp 6#3 ∧
    decode (pack 7#3 a b c) = .reservedOp 7#3

/-- R66: a word decodes to Reserved exactly when its `OP` is 0, 6 or 7. -/
def Obligations.ReservedExactlyForThreeCodes : Prop :=
  ∀ r : Request,
    (decode r = .reservedOp r.op ↔ r.op = 0#3 ∨ r.op = 6#3 ∨ r.op = 7#3) ∧
    ((∃ i, decode r = .instr i) ↔ ¬ (r.op = 0#3 ∨ r.op = 6#3 ∨ r.op = 7#3))

/-- R62: two words that differ only in fields their request ignores have the same events and state update. The words are presented
to an idle block, with the same words behind them. -/
def Obligations.IgnoredFieldsHaveNoEffect : Prop :=
  ∀ (s : State) (rest : List Request) (a b c a' b' c' : Byte),
    s.pending = [] →
    let onPort := fun (r : Request) => step { s with requests := r :: rest }
    (a.extractLsb' 0 3 = a'.extractLsb' 0 3 → onPort (pack 1#3 a b c) = onPort (pack 1#3 a' b' c')) ∧
    (a = a' → onPort (pack 2#3 a b c) = onPort (pack 2#3 a' b' c')) ∧
    (a = a' → b = b' → onPort (pack 3#3 a b c) = onPort (pack 3#3 a' b' c')) ∧
    onPort (pack 4#3 a b c) = onPort (pack 4#3 a' b' c')

/-- R60, R61: words of 95_test_vectors.md decode to the requests they are given for. -/
def Obligations.WrittenWordsDecode : Prop :=
  decode 0x1020000#27 = .instr (.select 0b010#3) ∧
  decode 0x1F81234#27 = .instr (.select 0b000#3) ∧
  decode 0x2480000#27 = .instr (.write 0x48#8) ∧
  decode 0x3010000#27 = .instr (.command 0x01#8 0x00#8) ∧
  decode 0x4000000#27 = .instr .reset ∧
  decode 0x5080400#27 = .instr (.init 0x08#8 0x04#8 0x00#8) ∧
  decode 0x7010203#27 = .reservedOp 7#3

/-- R74: the word each request line is assembled to, as a number, and the refusal of an operand out of range. -/
def Obligations.AssemblerWritesTheWord : Prop :=
  ∀ (x y z : Nat),
    Line.assemble (.select x) = (if x < 8 then some [BitVec.ofNat 27 (2 ^ 24 + x * 2 ^ 16)] else none) ∧
    Line.assemble (.write x) = (if x < 256 then some [BitVec.ofNat 27 (2 * 2 ^ 24 + x * 2 ^ 16)] else none) ∧
    Line.assemble (.command x y) =
      (if x < 256 ∧ y < 256 then some [BitVec.ofNat 27 (3 * 2 ^ 24 + x * 2 ^ 16 + y * 2 ^ 8)] else none) ∧
    Line.assemble .reset = some [BitVec.ofNat 27 (4 * 2 ^ 24)] ∧
    Line.assemble (.init x y z) =
      (if x < 256 ∧ y < 256 ∧ z < 256 then
        some [BitVec.ofNat 27 (5 * 2 ^ 24 + x * 2 ^ 16 + y * 2 ^ 8 + z)] else none)

/-- R75: what each pseudo-instruction's words decode to, for operands in range, and the two address ranges. -/
def Obligations.PseudoInstructionsExpand : Prop :=
  let decoded := fun (l : Line) => (Line.assemble l).map (fun ws => ws.map decode)
  (∀ codes : List Nat, (∀ c ∈ codes, c < 256) →
    decoded (.writeText codes) = some (codes.map (fun c => .instr (.write (BitVec.ofNat 8 c))))) ∧
  decoded .clear = some [.instr (.command 0x01#8 0x00#8)] ∧
  decoded .home = some [.instr (.command 0x02#8 0x00#8)] ∧
  (∀ p : Byte,
    decoded (.entryMode p.toNat) = some [.instr (.command 0x04#8 p)] ∧
    decoded (.displayControl p.toNat) = some [.instr (.command 0x08#8 p)] ∧
    decoded (.shift p.toNat) = some [.instr (.command 0x10#8 p)] ∧
    decoded (.functionSet p.toNat) = some [.instr (.command 0x20#8 p)] ∧
    decoded (.setCgram p.toNat) = (if p.toNat ≤ 63 then some [.instr (.command 0x40#8 p)] else none) ∧
    decoded (.setDdram p.toNat) = (if p.toNat ≤ 127 then some [.instr (.command 0x80#8 p)] else none)) ∧
  decoded .selectAll = some [.instr (.select 0b111#3)] ∧
  decoded .selectNone = some [.instr (.select 0b000#3)]

/-! ### The bus bytes of a nibble and of a byte -/

/-- R101: the four laws of `nib`. -/
def Obligations.NibbleTransferLaws : Prop :=
  ∀ (v : Byte) (rs : Rs) (m : Mask), ∃ b1 b2 : Byte,
    nib v rs m = [.commit b1, .commit b2] ∧
    (b1 &&& 0xF#8 = v &&& 0xF#8 ∧ b2 &&& 0xF#8 = v &&& 0xF#8) ∧
    b1 &&& 0x1F#8 = b2 &&& 0x1F#8 ∧
    enableField b2 = 0b000#3

/-- R67, R69, R100: where the enables, register-select and data stand in the two commits of a nibble transfer. -/
def Obligations.NibbleTransferBusLayout : Prop :=
  ∀ (v : Byte) (rs : Rs) (m : Mask), ∃ b1 b2 : Byte,
    nib v rs m = [.commit b1, .commit b2] ∧
    b1.toNat = m.toNat * 32 + rs.toNat * 16 + v.toNat % 16 ∧
    b2.toNat = rs.toNat * 16 + v.toNat % 16 ∧
    (∀ k : Slot, enableLine k b1 = m.getLsbD k.val ∧ enableLine k b2 = false) ∧
    rsField b1 = rs ∧ rsField b2 = rs

/-- R103: exactly two nibble operations, the high nibble's first; so four commits and no wait. -/
def Obligations.ByteIsTwoNibblesHighFirst : Prop :=
  ∀ (b : Byte) (rs : Rs) (m : Mask), ∃ h1 h2 l1 l2 : Byte,
    byteEv b rs m = [.commit h1, .commit h2, .commit l1, .commit l2] ∧
    nib (b >>> 4) rs m = [.commit h1, .commit h2] ∧
    nib (b &&& 0xF#8) rs m = [.commit l1, .commit l2] ∧
    (h1.toNat % 16 = b.toNat / 16 ∧ h2.toNat % 16 = b.toNat / 16) ∧
    (l1.toNat % 16 = b.toNat % 16 ∧ l2.toNat % 16 = b.toNat % 16)

/-- R121, R222: the bytes a command commits depend on `op | p` alone, and the wait after them on `op` alone, at the end. -/
def Obligations.ExtendedWaitReadsTheOpcodeAlone : Prop :=
  ∀ (op p : Byte) (m : Mask),
    ∃ sent : List Event,
      sent = byteEv (op ||| p) 0#1 m ∧ waitsIn sent = 0 ∧ sent.length = 4 ∧
      (op = 0x01#8 ∨ op = 0x02#8 → cmdEv op p m = sent ++ [.waitExt]) ∧
      (op ≠ 0x01#8 → op ≠ 0x02#8 → cmdEv op p m = sent)

/-- R140, R144, R145: the thirty events of the reset body, the configuration bytes OR-ed in unmasked, every commit a command. -/
def Obligations.ResetBodyIsTheThirtyEvents : Prop :=
  ∀ (m : Mask) (fs dc em : Byte),
    let en := m.setWidth 8 <<< 5
    let single := fun (v : Byte) => [Event.commit (en ||| v), Event.commit v]
    let byte := fun (c : Byte) => single (c >>> 4) ++ single (c &&& 0xF#8)
    resetBody m fs dc em =
      single 0x3#8 ++ single 0x3#8 ++ single 0x3#8 ++ single 0x2#8 ++
      byte (0x20#8 ||| fs) ++ byte (0x08#8 ||| dc) ++ byte (0x04#8 ||| em) ++
      byte 0x01#8 ++ [.waitExt] ++ byte 0x02#8 ++ [.waitExt] ∧
    (commitsIn (resetBody m fs dc em)).length = 28 ∧ waitsIn (resetBody m fs dc em) = 2 ∧
    (∀ b ∈ commitsIn (resetBody m fs dc em), rsField b = 0#1)

/-- R45, R47: the events of every request are whole nibble transfers, a phase 1 followed at once by its own phase 2, and waits. -/
def Obligations.RequestsEmitWholeNibbles : Prop :=
  ∀ (i : Instr) (s : State), wholeNibbles (eventsOf i s) = true

/-- R229: the commits and waits of each request. -/
def Obligations.EventCountsOfRequests : Prop :=
  ∀ (i : Instr) (s : State),
    (commitsIn (eventsOf i s)).length = commitCount i ∧ waitsIn (eventsOf i s) = waitCount i ∧
    (eventsOf i s).length = commitCount i + waitCount i ∧ (eventsOf i s).length ≤ 30

/-- R227: under an empty mask no enable is raised, and all commits and waits are still performed. -/
def Obligations.EmptyMaskRaisesNoEnable : Prop :=
  ∀ (i : Instr) (s : State), s.mask = 0b000#3 → admits i s → s.constructed = true →
    (i = .reset → Config.resetAllSlots = false) →
    (∀ b ∈ commitsIn (eventsOf i s), enableField b = 0b000#3) ∧
    (eventsOf i s).length = commitCount i + waitCount i

/-! ### The requests -/

/-- R170, R202: SELECT, `A[7:3]`, `B` and `C` ignored. Idle and constructed, it replaces the mask, emits nothing and changes nothing
else but the consumed word; before INIT it is refused; while the block is busy it is held, which the model gives as the same state
(log entry 3). That later requests use the mask until it is changed is `SelectedMaskLastsUntilChanged`. -/
def Obligations.SelectReplacesTheMask : Prop :=
  ∀ (m : Mask) (s : State),
    (s.pending = [] → s.constructed = true →
      exec (.select m) s = .next { s with mask := m, pending := [], requests := s.requests.tail }) ∧
    (s.pending = [] → s.constructed = false → exec (.select m) s = .refused .notConstructed) ∧
    (s.pending ≠ [] → exec (.select m) s = .next s) ∧
    (∀ a b c : Byte, decode (pack 1#3 a b c) = .instr (.select (a.extractLsb' 0 3)))

/-- R171: SELECT is idempotent, emits no event, leaves the configuration, `RSTATE` and `BUS`, and the next WRITE, COMMAND and (when
`RESET_ALL_SLOTS` is false) RESET use the new mask. -/
def Obligations.SelectIsIdempotentAndObservedNext : Prop :=
  ∀ (m : Mask) (s : State), s.pending = [] → s.constructed = true →
    ∃ t : State, exec (.select m) s = .next t ∧
      exec (.select m) t = .next { t with requests := t.requests.tail } ∧
      t.pending = [] ∧ t.trace = s.trace ∧
      (t.fs = s.fs ∧ t.dc = s.dc ∧ t.em = s.em ∧ t.rstate = s.rstate ∧ t.bus = s.bus) ∧
      (∀ b : Byte, exec (.write b) t =
        .next { t with pending := byteEv b 1#1 m, requests := t.requests.tail }) ∧
      (∀ op p : Byte, exec (.command op p) t =
        .next { t with pending := cmdEv op p m, requests := t.requests.tail }) ∧
      (Config.resetAllSlots = false → exec .reset t =
        .next { t with pending := resetBody m t.fs t.dc t.em, rstate := .unknown, requests := t.requests.tail })

/-- R122, R202: WRITE, `B` and `C` ignored. Idle and constructed, `PENDING` becomes the four commits of the byte as data and nothing
else changes but the consumed word; before INIT it is refused; while the block is busy it is held, which the model gives as the same
state (log entry 3). When performed, the bus holds `(RS_DATA << 4) | b[3:0]`. -/
def Obligations.WriteSendsItsByteAsData : Prop :=
  ∀ (b : Byte) (s : State),
    (s.pending = [] → s.constructed = true →
      exec (.write b) s =
        .next { s with
          pending :=
            [.commit ((s.mask.setWidth 8 <<< 5) ||| 0x10#8 ||| (b >>> 4)), .commit (0x10#8 ||| (b >>> 4)),
             .commit ((s.mask.setWidth 8 <<< 5) ||| 0x10#8 ||| (b &&& 0xF#8)), .commit (0x10#8 ||| (b &&& 0xF#8))]
          requests := s.requests.tail }) ∧
    (s.pending = [] → s.constructed = false → exec (.write b) s = .refused .notConstructed) ∧
    (s.pending ≠ [] → exec (.write b) s = .next s) ∧
    busAfterAll s.bus (eventsOf (.write b) s) = 0x10#8 ||| (b &&& 0xF#8) ∧
    (∀ x y : Byte, decode (pack 2#3 b x y) = .instr (.write b))

/-- R120, R202: COMMAND, `C` ignored. Idle and constructed, `PENDING` becomes the four commits of `op | p` as a command, then the
extended wait when `op` is `0x01` or `0x02`; nothing else changes but the consumed word; before INIT it is refused; while the block is
busy it is held, which the model gives as the same state (log entry 3). When performed, the bus holds `(op | p)[3:0]`. -/
def Obligations.CommandSendsOpcodeOrParameter : Prop :=
  ∀ (op p : Byte) (s : State),
    (s.pending = [] → s.constructed = true →
      exec (.command op p) s =
        .next { s with
          pending :=
            [.commit ((s.mask.setWidth 8 <<< 5) ||| ((op ||| p) >>> 4)), .commit ((op ||| p) >>> 4),
             .commit ((s.mask.setWidth 8 <<< 5) ||| ((op ||| p) &&& 0xF#8)), .commit ((op ||| p) &&& 0xF#8)] ++
            (if op = 0x01#8 ∨ op = 0x02#8 then [.waitExt] else [])
          requests := s.requests.tail }) ∧
    (s.pending = [] → s.constructed = false → exec (.command op p) s = .refused .notConstructed) ∧
    (s.pending ≠ [] → exec (.command op p) s = .next s) ∧
    busAfterAll s.bus (eventsOf (.command op p) s) = (op ||| p) &&& 0xF#8 ∧
    (∀ x : Byte, decode (pack 3#3 op p x) = .instr (.command op p))

/-- R142, R202: RESET, for both values of the open parameter `RESET_ALL_SLOTS` (log entry 6). Idle and constructed, it re-runs the body with
the stored configuration, against the mask (unchanged) or against all slots (the mask narrowed to slot 0); `CONSTRUCTED`, `FS`, `DC`,
`EM` are unchanged; before INIT it is refused; while the block is busy it is held, which the model gives as the same state (log
entry 3). -/
def Obligations.ResetRerunsTheBody : Prop :=
  ∀ s : State,
    (s.pending = [] → s.constructed = true → Config.resetAllSlots = false →
      exec .reset s =
        .next { s with
          pending := resetBody s.mask s.fs s.dc s.em, rstate := .unknown, requests := s.requests.tail }) ∧
    (s.pending = [] → s.constructed = true → Config.resetAllSlots = true →
      exec .reset s =
        .next { s with
          pending := resetBody 0b111#3 s.fs s.dc s.em, rstate := .unknown, mask := 0b001#3,
          requests := s.requests.tail }) ∧
    (s.pending = [] → s.constructed = true →
      ∃ t, exec .reset s = .next t ∧ t.pending.length = 30 ∧ t.rstate = .unknown ∧
        t.constructed = true ∧ t.fs = s.fs ∧ t.dc = s.dc ∧ t.em = s.em ∧
        t.bus = s.bus ∧ t.trace = s.trace ∧ (t.mask = s.mask ∨ t.mask = 0b001#3)) ∧
    (s.pending = [] → s.constructed = false → exec .reset s = .refused .notConstructed) ∧
    (s.pending ≠ [] → exec .reset s = .next s) ∧
    (∀ x y z : Byte, decode (pack 4#3 x y z) = .instr .reset)

/-- R143, R202: INIT. Idle and not constructed, it stores the three bytes, makes the body against all slots pending, narrows the mask
to slot 0 and sets `CONSTRUCTED`, all at acceptance; nothing else changes but the consumed word; it is refused when a session exists;
while the block is busy it is held, which the model gives as the same state (log entry 3). -/
def Obligations.InitConstructsTheSession : Prop :=
  ∀ (fs dc em : Byte) (s : State),
    (s.pending = [] → s.constructed = false →
      exec (.init fs dc em) s =
        .next { s with
          constructed := true, fs := fs, dc := dc, em := em, mask := 0b001#3, rstate := .unknown,
          pending := resetBody 0b111#3 fs dc em, requests := s.requests.tail }) ∧
    (s.pending = [] → s.constructed = true → exec (.init fs dc em) s = .refused .alreadyConstructed) ∧
    (s.pending ≠ [] → exec (.init fs dc em) s = .next s) ∧
    decode (pack 5#3 fs dc em) = .instr (.init fs dc em)

/-- R211 Accept, R20's column 'written by': when a request is taken, no event is performed, and each register changes only for the
requests the spec lets write it. The block has no memory (R40), so there is no byte of memory to change. -/
def Obligations.AcceptanceFrame : Prop :=
  ∀ (i : Instr) (s t : State), exec i s = .next t →
    (t.bus = s.bus ∧ t.trace = s.trace ∧ t.elapsed = s.elapsed ∧
      t.transportAcks = s.transportAcks ∧ t.waitAcks = s.waitAcks) ∧
    ((∀ fs dc em, i ≠ .init fs dc em) →
      t.constructed = s.constructed ∧ t.fs = s.fs ∧ t.dc = s.dc ∧ t.em = s.em ∧
      (i ≠ .reset → t.rstate = s.rstate ∧ ((∀ m, i ≠ .select m) → t.mask = s.mask))) ∧
    (i = .reset → Config.resetAllSlots = false → t.mask = s.mask)

/-- R70, R200: no request's meaning faults, and one that is idle and admitted is accepted, whatever its operands. -/
def Obligations.AdmittedRequestsAreAccepted : Prop :=
  ∀ (i : Instr) (s : State),
    (∀ f, exec i s ≠ .fault f) ∧
    (s.pending = [] → admits i s →
      ∃ t, exec i s = .next t ∧ t.pending = eventsOf i s ∧ t.requests = s.requests.tail)

/-! ### The step -/

/-- R202: the five rows, in their order, for a word presented on the port. Row 1: while an event is pending the word is not ready to
be taken, stays on the port, and no step refuses. Rows 2 to 4: the refusals. Row 5: the request is accepted, and the step is its rule. -/
def Obligations.AdmissionRowsInOrder : Prop :=
  ∀ (r : Request) (rest : List Request) (s : State), s.requests = r :: rest →
    (s.pending ≠ [] → s.reqReady = false ∧ (∀ q, step s ≠ .refused q) ∧
      ∀ t, step s = .next t → t.requests = r :: rest) ∧
    (s.pending = [] → (r.op = 0#3 ∨ r.op = 6#3 ∨ r.op = 7#3) → step s = .refused (.reservedOp r.op)) ∧
    (s.pending = [] → ¬ (r.op = 0#3 ∨ r.op = 6#3 ∨ r.op = 7#3) →
      (r.op ≠ 5#3 → s.constructed = false → step s = .refused .notConstructed) ∧
      (r.op = 5#3 → s.constructed = true → step s = .refused .alreadyConstructed) ∧
      ((r.op = 5#3 ↔ s.constructed = false) →
        ∃ t i, decode r = .instr i ∧ step s = exec i s ∧ step s = .next t ∧ t.pending = eventsOf i s ∧
          t.requests = rest ∧ t.trace = s.trace ∧ t.bus = s.bus))

/-- R211: with nothing pending, a step on a word that decodes to a request is that request's meaning. -/
def Obligations.StepRunsThePresentedRequest : Prop :=
  ∀ (s : State) (r : Request) (i : Instr),
    s.pending = [] → s.requests.head? = some r → i.wellFormed = true → decode r = .instr i →
    step s = exec i s

/-- R207, R211 (log entries 1 and 12): a word put on the port is what the very next step takes. -/
def Obligations.PresentedWordIsTakenNext : Prop :=
  ∀ (s : State) (i : Instr),
    step (s.withFetchWord 27 (encode i).toNat) =
      exec i { s with pending := [], requests := encode i :: s.requests }

/-- R211 Perform, R26, R41, R51: a step with an event pending performs exactly that event, when its port acknowledges; no register of
the block but `RSTATE` and `PENDING` changes and the port's words are kept. -/
def Obligations.StepPerformsTheHeadEvent : Prop :=
  ∀ (s : State) (e : Event) (rest : List Event), s.pending = e :: rest → s.acks e = true →
    ∃ t, step s = .next t ∧ t.pending = rest ∧ t.trace = s.trace ++ [e] ∧
      (∀ b, e = .commit b → t.bus = b) ∧ (e = .waitExt → t.bus = s.bus) ∧
      t.mask = s.mask ∧ t.fs = s.fs ∧ t.dc = s.dc ∧ t.em = s.em ∧ t.constructed = s.constructed ∧
      t.requests = s.requests ∧ t.transportAcks = s.transportAcks ∧ t.waitAcks = s.waitAcks

/-- R207: the ports' signals. `bus_out` is presented exactly while the next event is a commit, `wait_req` exactly while it is the
wait, `req_ready` exactly when neither is. -/
def Obligations.PortSignalsFollowPending : Prop :=
  ∀ s : State,
    (∀ b, s.busOut = some b ↔ ∃ rest, s.pending = .commit b :: rest) ∧
    (s.waitReq = true ↔ ∃ rest, s.pending = .waitExt :: rest) ∧
    (s.reqReady = true ↔ s.busOut = none ∧ s.waitReq = false) ∧
    (s.reqReady = true ↔ s.pending = [])

/-- R210: an idle block to which no word is presented keeps all its state. -/
def Obligations.IdleBlockKeepsItsState : Prop :=
  ∀ (s : State) (n : Nat), s.pending = [] → s.requests = [] → runs n s = .next s

/-- R200, R211, 93 U11 (log entry 4): a step stops stuck exactly when the port of the pending event does not acknowledge. -/
def Obligations.StuckExactlyOnASilentPort : Prop :=
  ∀ s : State,
    ((∃ f, step s = .fault f) ↔ ∃ e rest, s.pending = e :: rest ∧ s.acks e = false) ∧
    (s.fair → ∀ f, step s ≠ .fault f)

/-- R47, R49: events are performed one at a time in the order of `PENDING`, none left out, merged or reordered, and no word is taken
meanwhile. -/
def Obligations.EventsArePerformedInOrder : Prop :=
  ∀ (s : State) (n : Nat), s.fair → n ≤ s.pending.length →
    ∃ t, runs n s = .next t ∧ t.trace = s.trace ++ s.pending.take n ∧ t.pending = s.pending.drop n ∧
      t.requests = s.requests ∧ t.bus = busAfterAll s.bus (s.pending.take n)

/-- R206, R50: a performed wait takes at least `T_EXT`, whatever `T_EXT` is. `elapsed` is the model's own measure (log entry 5). R211: a
wait port that does not acknowledge leaves the run stuck, nothing further performed, which the model gives as the fault `waitSilent`
(its own choice, log entry 4). -/
def Obligations.WaitTakesAtLeastTExt : Prop :=
  ∀ (s : State) (rest : List Event), s.pending = .waitExt :: rest →
    (s.waitAcks = true → ∃ t, step s = .next t ∧ s.elapsed + Config.tExt ≤ t.elapsed ∧
      t.trace = s.trace ++ [.waitExt] ∧ t.pending = rest) ∧
    (s.waitAcks = false → step s = .fault .waitSilent)

/-- R206, R121: over any run the ports take at least `T_EXT` for every wait performed, and time never runs back. `elapsed` is the
model's own measure (log entry 5). -/
def Obligations.RunsTakeTExtForEveryWait : Prop :=
  ∀ (n : Nat) (s t : State), runs n s = .next t →
    s.elapsed ≤ t.elapsed ∧ s.elapsed + Config.tExt * waitsIn t.trace ≤ t.elapsed + Config.tExt * waitsIn s.trace

/-! ### Power-on and invariants -/

/-- R32, R25: the power-on values the spec gives. -/
def Obligations.PowerOnValues : Prop :=
  State.reset.constructed = false ∧ State.reset.pending = [] ∧ State.reset.busy = false ∧
  State.reset.reqReady = true ∧ State.reset.rstate = .unknown ∧ State.reset.trace = []

/-- R32, 93 U4: the values that `MASK`, `FS`, `DC`, `EM` hold before INIT are not observable: a step refuses, faults or goes on in the
same way whatever they are, and when it constructs the session its next state is the very same. -/
def Obligations.UnspecifiedRegistersAreNotObservable : Prop :=
  ∀ (s : State) (m : Mask) (fs dc em : Byte), s.constructed = false → s.pending = [] →
    step (s.withUnspecified m fs dc em) =
      mapNext (fun t => if t.constructed then t else t.withUnspecified m fs dc em) (step s)

/-- R24, R30: nothing reads `RSTATE`: states that differ only in it step alike but for it. -/
def Obligations.RStateIsNotObservable : Prop :=
  ∀ (s : State) (r : RState),
    mapNext (fun t => t.withRState .unknown) (step (s.withRState r)) =
      mapNext (fun t => t.withRState .unknown) (step s)

/-- R30, R41: the block never reads the bus: states that differ only in `BUS` step alike but for it, and after a commit they agree. -/
def Obligations.BusIsNeverRead : Prop :=
  ∀ (s : State) (b : Byte),
    mapNext (fun t => t.withBus 0#8) (step (s.withBus b)) = mapNext (fun t => t.withBus 0#8) (step s) ∧
    (∀ c rest, s.pending = .commit c :: rest → step (s.withBus b) = step s)

/-- R34 (d), (e) at power-on: what is in flight and what `RSTATE` says agree. -/
def Obligations.SequencedAtReset : Prop := State.reset.sequenced

/-- R34 (d), (e), R141: every step keeps the sequencing invariant. -/
def Obligations.StepKeepsSequenced : Prop :=
  ∀ s t : State, s.sequenced → step s = .next t → t.sequenced

/-- R34 (d), R24, R32: after a step from a sequenced state, a constructed block that is idle has `RSTATE = Ready`, and one not
constructed has nothing pending and `RSTATE = Unknown`. -/
def Obligations.IdleSessionIsReady : Prop :=
  ∀ s t : State, s.sequenced → step s = .next t →
    (t.constructed = true → t.pending = [] → t.rstate = .ready) ∧
    (t.constructed = false → t.pending = [] ∧ t.rstate = .unknown)

/-- R141: `RSTATE` after each of the thirty events of an accepted RESET or INIT. -/
def Obligations.RStateMovesAlongTheBody : Prop :=
  ∀ (i : Instr) (s t : State) (n : Nat),
    (i = .reset ∨ ∃ fs dc em, i = .init fs dc em) → s.pending = [] → s.fair → exec i s = .next t → n ≤ 30 →
    ∃ u, runs n t = .next u ∧
      u.rstate =
        (if n < 6 then .unknown else if n < 8 then .forcedEightBit else if n < 20 then .fourBitConfirmed
         else if n < 30 then .configured else .ready)

/-- R34 (b), (c), R22, R23: once constructed, a step neither clears `CONSTRUCTED` nor changes the configuration bytes. -/
def Obligations.ConfigurationIsFixedByInit : Prop :=
  ∀ (n : Nat) (s t : State), s.constructed = true → runs n s = .next t →
    t.constructed = true ∧ t.fs = s.fs ∧ t.dc = s.dc ∧ t.em = s.em

/-- R21: a step changes `MASK` only by taking a SELECT, an INIT or (when `RESET_ALL_SLOTS`) a RESET. -/
def Obligations.MaskIsWrittenByThreeRequests : Prop :=
  ∀ s t : State, step s = .next t → t.mask ≠ s.mask →
    ∃ r i, s.pending = [] ∧ s.requests.head? = some r ∧ decode r = .instr i ∧
      (i = .select t.mask ∨ (∃ fs dc em, i = .init fs dc em ∧ t.mask = 0b001#3) ∨
        (i = .reset ∧ Config.resetAllSlots = true ∧ t.mask = 0b001#3))

/-- R26, R54: at power-on the bus is what no commit has changed. -/
def Obligations.BusFollowsTraceAtReset : Prop := State.reset.busFollowsTrace Config.busPowerOn

/-- R26, R54: `BUS` holds exactly the last committed value; every step keeps it so. -/
def Obligations.StepKeepsBusFollowsTrace : Prop :=
  ∀ (b0 : Byte) (s t : State), s.busFollowsTrace b0 → step s = .next t → t.busFollowsTrace b0

/-- R104, R228 at power-on. -/
def Obligations.EdgesIntendedAtReset : Prop := State.reset.edgesIntended

/-- R104, R228: every step keeps the bus so that the pending events make no falling enable edge but a nibble's own phase 2. -/
def Obligations.StepKeepsEdgesIntended : Prop :=
  ∀ s t : State, s.edgesIntended → step s = .next t → t.edgesIntended

/-- R104: in such a state, a step that takes an enable line of a session's bus from 1 to 0 is a phase-2 commit: every enable is low
after it and bus bits 4:0 are as before, so what the slot latches is what the commit shows. -/
def Obligations.FallingEdgeIsPhaseTwo : Prop :=
  ∀ (s t : State) (k : Slot), s.edgesIntended → s.constructed = true → step s = .next t →
    enableLine k s.bus = true → enableLine k t.bus = false →
    enableField t.bus = 0b000#3 ∧ payloadField t.bus = payloadField s.bus ∧
    latchAt k s.bus t.bus = some ⟨rsField t.bus, dataField t.bus⟩

/-! ### What the displays receive -/

/-- R228, R104: whatever the bus held at power-on, INIT's events deliver the same fourteen nibbles to every slot. -/
def Obligations.InitReachesEverySlot : Prop :=
  ∀ (k : Slot) (bus fs dc em : Byte) (s : State),
    receives k bus (eventsOf (.init fs dc em) s) = bodyLatches fs dc em

/-- R104, R172: the events of a request, performed from a bus with every enable low, deliver the request's nibbles to exactly the
slots named by the mask, and leave every enable low. -/
def Obligations.RequestReachesExactlyTheNamedSlots : Prop :=
  ∀ (k : Slot) (bus : Byte) (s : State), enableField bus = 0b000#3 →
    (∀ b : Byte,
      receives k bus (eventsOf (.write b) s) = (if s.mask.getLsbD k.val then byteLatches b 1#1 else []) ∧
      enableField (busAfterAll bus (eventsOf (.write b) s)) = 0b000#3) ∧
    (∀ op p : Byte,
      receives k bus (eventsOf (.command op p) s) =
        (if s.mask.getLsbD k.val then byteLatches (op ||| p) 0#1 else []) ∧
      enableField (busAfterAll bus (eventsOf (.command op p) s)) = 0b000#3) ∧
    receives k bus (eventsOf .reset s) =
      (if Config.resetAllSlots || s.mask.getLsbD k.val then bodyLatches s.fs s.dc s.em else []) ∧
    enableField (busAfterAll bus (eventsOf .reset s)) = 0b000#3

/-- R104: when the bus follows the trace, each step adds to what a slot has latched exactly the latch of that step's bus change. -/
def Obligations.LatchHistoryGrowsByTheEdge : Prop :=
  ∀ (s t : State) (k : Slot), s.busFollowsTrace Config.busPowerOn → step s = .next t →
    t.received k = s.received k ++ (latchAt k s.bus t.bus).toList

/-! ### Whole requests and whole runs -/

/-- R211, R229, R33: a request admitted by an idle block with acknowledging ports is taken and performed in one step and one step for
each of its events, and then the block is idle again, `Ready`, with exactly those events added to the trace. -/
def Obligations.AdmittedRequestRunsToCompletion : Prop :=
  ∀ (r : Request) (rest : List Request) (i : Instr) (s : State),
    s.sequenced → s.fair → s.pending = [] → s.requests = r :: rest → decode r = .instr i → admits i s →
    ∃ t, runs (1 + commitCount i + waitCount i) s = .next t ∧
      t.pending = [] ∧ t.constructed = true ∧ t.rstate = .ready ∧ t.requests = rest ∧
      t.trace = s.trace ++ eventsOf i s ∧ t.bus = busAfterAll s.bus (eventsOf i s)

/-- R33: after INIT and its events the session is constructed with INIT's bytes, addresses slot 0 and is ready. -/
def Obligations.StateAfterInit : Prop :=
  ∀ (s : State) (rest : List Request) (fs dc em : Byte),
    s.constructed = false → s.pending = [] → s.fair → s.requests = encode (.init fs dc em) :: rest →
    ∃ t, runs 31 s = .next t ∧ t.constructed = true ∧ t.fs = fs ∧ t.dc = dc ∧ t.em = em ∧
      t.mask = 0b001#3 ∧ t.rstate = .ready ∧ t.pending = [] ∧ t.requests = rest ∧
      t.trace = s.trace ++ resetBody 0b111#3 fs dc em ∧ t.bus = 0x02#8

/-- R123: a text is its bytes' WRITE requests in order, and its trace is their four commits each; an empty text does nothing. -/
def Obligations.WriteTextTrace : Prop :=
  ∀ (text : List Byte) (rest : List Request) (s : State),
    s.constructed = true → s.pending = [] → s.fair →
    s.requests = text.map (fun c => encode (.write c)) ++ rest →
    ∃ t, runs (5 * text.length) s = .next t ∧
      t.trace = s.trace ++ text.flatMap (fun c => byteEv c 1#1 s.mask) ∧
      t.pending = [] ∧ t.requests = rest ∧ t.mask = s.mask ∧ t.constructed = true

/-- R211: with acknowledging ports every run of finitely many requests ends, finished or refused, within a bound. That the host hands over
finitely many words is the model's form of the host (log entry 1): the unending traces of R73 are not the subject here. -/
def Obligations.FairRunsEnd : Prop :=
  ∀ s : State, s.fair →
    ∃ n, n ≤ s.pending.length + 31 * s.requests.length ∧
      ((∃ t, runs n s = .next t ∧ t.finished = true) ∨ ∃ r, runs n s = .refused r)

/-- R211, R47: nothing performed is taken back: over any run the trace only grows at its end. -/
def Obligations.TraceOnlyGrows : Prop :=
  ∀ (n : Nat) (s t : State), runs n s = .next t → s.trace <+: t.trace

/-- R170 ("effective for all subsequent writes/commands until changed again"): after an accepted SELECT, however long the block runs,
the mask is the selected one and every later WRITE and COMMAND uses it, as long as no word that changes it is presented (another
SELECT, or a RESET when `RESET_ALL_SLOTS`); an INIT word ends the run, refused. -/
def Obligations.SelectedMaskLastsUntilChanged : Prop :=
  ∀ (m : Mask) (n : Nat) (s u t : State),
    s.pending = [] → s.constructed = true → exec (.select m) s = .next u →
    (∀ r ∈ u.requests, ∀ i, decode r = .instr i → (∀ m', i ≠ .select m') ∧ (i = .reset → Config.resetAllSlots = false)) →
    runs n u = .next t →
    t.mask = m ∧ t.constructed = true ∧
    (t.pending = [] →
      (∀ b : Byte, exec (.write b) t = .next { t with pending := byteEv b 1#1 m, requests := t.requests.tail }) ∧
      (∀ op p : Byte, exec (.command op p) t = .next { t with pending := cmdEv op p m, requests := t.requests.tail }))
end

