-- ==== Sys2Proof/Laws/Encoding.lean ====
section
/-! SUPPORT. The fields of a packed request word (R60) and of a bus byte (R67). -/

namespace Sys2Proof

section
variable (op : BitVec 3) (a b c : Byte)

/-- Bit `i` of a packed word (R60). -/
theorem getLsbD_pack (i : Nat) :
    (pack op a b c).getLsbD i =
      if i < 8 then c.getLsbD i else if i < 16 then b.getLsbD (i - 8)
      else if i < 24 then a.getLsbD (i - 16) else op.getLsbD (i - 24) := by
  by_cases h : i < 27
  · simp only [pack, BitVec.getLsbD_or, BitVec.getLsbD_shiftLeft, BitVec.getLsbD_setWidth]
    interval_cases i <;> simp
  · rw [BitVec.getLsbD_of_ge _ _ (by omega), if_neg (by omega), if_neg (by omega), if_neg (by omega),
      BitVec.getLsbD_of_ge _ _ (by omega)]

@[simp] theorem op_pack : Request.op (pack op a b c) = op := by
  apply BitVec.eq_of_getLsbD_eq
  intro i hi
  simp only [Request.op, BitVec.getLsbD_extractLsb', getLsbD_pack]
  interval_cases i <;> simp

@[simp] theorem fieldA_pack : Request.fieldA (pack op a b c) = a := by
  apply BitVec.eq_of_getLsbD_eq
  intro i hi
  simp only [Request.fieldA, BitVec.getLsbD_extractLsb', getLsbD_pack]
  interval_cases i <;> simp

@[simp] theorem fieldB_pack : Request.fieldB (pack op a b c) = b := by
  apply BitVec.eq_of_getLsbD_eq
  intro i hi
  simp only [Request.fieldB, BitVec.getLsbD_extractLsb', getLsbD_pack]
  interval_cases i <;> simp

@[simp] theorem fieldC_pack : Request.fieldC (pack op a b c) = c := by
  apply BitVec.eq_of_getLsbD_eq
  intro i hi
  simp only [Request.fieldC, BitVec.getLsbD_extractLsb', getLsbD_pack]
  interval_cases i <;> simp

end

/-- A word is the packing of its own fields. -/
theorem pack_fields (r : Request) : pack r.op r.fieldA r.fieldB r.fieldC = r := by
  apply BitVec.eq_of_getLsbD_eq
  intro i hi
  simp only [Request.op, Request.fieldA, Request.fieldB, Request.fieldC, getLsbD_pack, BitVec.getLsbD_extractLsb']
  interval_cases i <;> simp

end Sys2Proof

namespace Sys2Proof.Machine

section
variable (en : Mask) (rs : Rs) (v : Byte)

/-- Bit `i` of a bus byte (R67). -/
theorem getLsbD_busByte (i : Nat) :
    (busByte en rs v).getLsbD i =
      if i < 4 then v.getLsbD i else if i = 4 then rs.getLsbD 0 else en.getLsbD (i - 5) := by
  by_cases h : i < 8
  · simp only [busByte, BitVec.getLsbD_or, BitVec.getLsbD_and, BitVec.getLsbD_shiftLeft, BitVec.getLsbD_setWidth]
    interval_cases i <;> simp
  · rw [BitVec.getLsbD_of_ge _ _ (by omega), if_neg (by omega), if_neg (by omega), BitVec.getLsbD_of_ge _ _ (by omega)]

@[simp] theorem enableField_busByte : enableField (busByte en rs v) = en := by
  apply BitVec.eq_of_getLsbD_eq
  intro i hi
  simp only [enableField, BitVec.getLsbD_extractLsb', getLsbD_busByte]
  interval_cases i <;> simp

@[simp] theorem rsField_busByte : rsField (busByte en rs v) = rs := by
  apply BitVec.eq_of_getLsbD_eq
  intro i hi
  simp only [rsField, BitVec.getLsbD_extractLsb', getLsbD_busByte]
  interval_cases i
  simp

@[simp] theorem dataField_busByte : dataField (busByte en rs v) = v.extractLsb' 0 4 := by
  apply BitVec.eq_of_getLsbD_eq
  intro i hi
  simp only [dataField, BitVec.getLsbD_extractLsb', getLsbD_busByte]
  interval_cases i <;> simp

@[simp] theorem enableLine_busByte (k : Slot) : enableLine k (busByte en rs v) = en.getLsbD k.val := by
  simp only [enableLine, getLsbD_busByte]
  rw [if_neg (by omega), if_neg (by omega), Nat.add_sub_cancel_left]

/-- The enables taken low leave register-select and data (R100 phase 2). -/
@[simp] theorem busByte_and_payload : busByte en rs v &&& 0x1F#8 = busByte noMask rs v := by
  apply BitVec.eq_of_getLsbD_eq
  intro i hi
  simp only [BitVec.getLsbD_and, getLsbD_busByte]
  interval_cases i <;> simp [noMask]

end

/-- An enable line is a bit of the enable field (R67, R69). -/
theorem enableLine_eq (k : Slot) (b : Byte) : enableLine k b = (enableField b).getLsbD k.val := by
  simp [enableLine, enableField]

@[simp] theorem enableField_and_payload (b : Byte) : enableField (b &&& 0x1F#8) = noMask := by
  apply BitVec.eq_of_getLsbD_eq
  intro i hi
  simp only [enableField, BitVec.getLsbD_extractLsb', BitVec.getLsbD_and]
  interval_cases i <;> simp [noMask]

@[simp] theorem payloadField_and_payload (b : Byte) : payloadField (b &&& 0x1F#8) = payloadField b := by
  apply BitVec.eq_of_getLsbD_eq
  intro i hi
  simp only [payloadField, BitVec.getLsbD_extractLsb', BitVec.getLsbD_and]
  interval_cases i <;> simp

@[simp] theorem rsField_and_payload (b : Byte) : rsField (b &&& 0x1F#8) = rsField b := by
  apply BitVec.eq_of_getLsbD_eq
  intro i hi
  simp only [rsField, BitVec.getLsbD_extractLsb', BitVec.getLsbD_and]
  interval_cases i
  simp

@[simp] theorem dataField_and_payload (b : Byte) : dataField (b &&& 0x1F#8) = dataField b := by
  apply BitVec.eq_of_getLsbD_eq
  intro i hi
  simp only [dataField, BitVec.getLsbD_extractLsb', BitVec.getLsbD_and]
  interval_cases i <;> simp

end Sys2Proof.Machine
end

