-- ==== Sys2Proof/Laws/State.lean ====
section
/-! SUPPORT. One lemma for each field of each state update. -/

namespace Sys2Proof.Machine

section
variable (s : State) (m : Mask)

@[simp] theorem State.setMask_constructed : (s.setMask m).constructed = s.constructed := rfl
@[simp] theorem State.setMask_mask : (s.setMask m).mask = m := rfl
@[simp] theorem State.setMask_fs : (s.setMask m).fs = s.fs := rfl
@[simp] theorem State.setMask_dc : (s.setMask m).dc = s.dc := rfl
@[simp] theorem State.setMask_em : (s.setMask m).em = s.em := rfl
@[simp] theorem State.setMask_rstate : (s.setMask m).rstate = s.rstate := rfl
@[simp] theorem State.setMask_pending : (s.setMask m).pending = s.pending := rfl
@[simp] theorem State.setMask_bus : (s.setMask m).bus = s.bus := rfl
@[simp] theorem State.setMask_trace : (s.setMask m).trace = s.trace := rfl
@[simp] theorem State.setMask_elapsed : (s.setMask m).elapsed = s.elapsed := rfl
@[simp] theorem State.setMask_requests : (s.setMask m).requests = s.requests := rfl
@[simp] theorem State.setMask_transportAcks : (s.setMask m).transportAcks = s.transportAcks := rfl
@[simp] theorem State.setMask_waitAcks : (s.setMask m).waitAcks = s.waitAcks := rfl

end

section
variable (s : State) (fs dc em : Byte)

@[simp] theorem State.construct_constructed : (s.construct fs dc em).constructed = true := rfl
@[simp] theorem State.construct_mask : (s.construct fs dc em).mask = defaultMask := rfl
@[simp] theorem State.construct_fs : (s.construct fs dc em).fs = fs := rfl
@[simp] theorem State.construct_dc : (s.construct fs dc em).dc = dc := rfl
@[simp] theorem State.construct_em : (s.construct fs dc em).em = em := rfl
@[simp] theorem State.construct_rstate : (s.construct fs dc em).rstate = .unknown := rfl
@[simp] theorem State.construct_pending : (s.construct fs dc em).pending = s.pending := rfl
@[simp] theorem State.construct_bus : (s.construct fs dc em).bus = s.bus := rfl
@[simp] theorem State.construct_trace : (s.construct fs dc em).trace = s.trace := rfl
@[simp] theorem State.construct_elapsed : (s.construct fs dc em).elapsed = s.elapsed := rfl
@[simp] theorem State.construct_requests : (s.construct fs dc em).requests = s.requests := rfl
@[simp] theorem State.construct_transportAcks : (s.construct fs dc em).transportAcks = s.transportAcks := rfl
@[simp] theorem State.construct_waitAcks : (s.construct fs dc em).waitAcks = s.waitAcks := rfl

end

section
variable (s : State) (allSlots : Bool)

@[simp] theorem State.restart_constructed : (s.restart allSlots).constructed = s.constructed := rfl
@[simp] theorem State.restart_mask : (s.restart allSlots).mask = if allSlots then defaultMask else s.mask := rfl
@[simp] theorem State.restart_fs : (s.restart allSlots).fs = s.fs := rfl
@[simp] theorem State.restart_dc : (s.restart allSlots).dc = s.dc := rfl
@[simp] theorem State.restart_em : (s.restart allSlots).em = s.em := rfl
@[simp] theorem State.restart_rstate : (s.restart allSlots).rstate = .unknown := rfl
@[simp] theorem State.restart_pending : (s.restart allSlots).pending = s.pending := rfl
@[simp] theorem State.restart_bus : (s.restart allSlots).bus = s.bus := rfl
@[simp] theorem State.restart_trace : (s.restart allSlots).trace = s.trace := rfl
@[simp] theorem State.restart_elapsed : (s.restart allSlots).elapsed = s.elapsed := rfl
@[simp] theorem State.restart_requests : (s.restart allSlots).requests = s.requests := rfl
@[simp] theorem State.restart_transportAcks : (s.restart allSlots).transportAcks = s.transportAcks := rfl
@[simp] theorem State.restart_waitAcks : (s.restart allSlots).waitAcks = s.waitAcks := rfl

end

section
variable (s : State) (evs : List Event)

@[simp] theorem State.issue_constructed : (s.issue evs).constructed = s.constructed := rfl
@[simp] theorem State.issue_mask : (s.issue evs).mask = s.mask := rfl
@[simp] theorem State.issue_fs : (s.issue evs).fs = s.fs := rfl
@[simp] theorem State.issue_dc : (s.issue evs).dc = s.dc := rfl
@[simp] theorem State.issue_em : (s.issue evs).em = s.em := rfl
@[simp] theorem State.issue_rstate : (s.issue evs).rstate = s.rstate := rfl
@[simp] theorem State.issue_pending : (s.issue evs).pending = evs := rfl
@[simp] theorem State.issue_bus : (s.issue evs).bus = s.bus := rfl
@[simp] theorem State.issue_trace : (s.issue evs).trace = s.trace := rfl
@[simp] theorem State.issue_elapsed : (s.issue evs).elapsed = s.elapsed := rfl
@[simp] theorem State.issue_requests : (s.issue evs).requests = s.requests.tail := rfl
@[simp] theorem State.issue_transportAcks : (s.issue evs).transportAcks = s.transportAcks := rfl
@[simp] theorem State.issue_waitAcks : (s.issue evs).waitAcks = s.waitAcks := rfl

end

section
variable (s : State) (e : Event) (rest : List Event)

@[simp] theorem State.complete_constructed : (s.complete e rest).constructed = s.constructed := rfl
@[simp] theorem State.complete_mask : (s.complete e rest).mask = s.mask := rfl
@[simp] theorem State.complete_fs : (s.complete e rest).fs = s.fs := rfl
@[simp] theorem State.complete_dc : (s.complete e rest).dc = s.dc := rfl
@[simp] theorem State.complete_em : (s.complete e rest).em = s.em := rfl
@[simp] theorem State.complete_rstate : (s.complete e rest).rstate = s.rstate.advance rest.length := rfl
@[simp] theorem State.complete_pending : (s.complete e rest).pending = rest := rfl
@[simp] theorem State.complete_bus : (s.complete e rest).bus = e.busAfter s.bus := rfl
@[simp] theorem State.complete_trace : (s.complete e rest).trace = s.trace ++ [e] := rfl
@[simp] theorem State.complete_elapsed : (s.complete e rest).elapsed = s.elapsed + e.duration s.trace.length := rfl
@[simp] theorem State.complete_requests : (s.complete e rest).requests = s.requests := rfl
@[simp] theorem State.complete_transportAcks : (s.complete e rest).transportAcks = s.transportAcks := rfl
@[simp] theorem State.complete_waitAcks : (s.complete e rest).waitAcks = s.waitAcks := rfl

end

end Sys2Proof.Machine
end

