-- ==== Sys2Proof/Laws/Ops.lean ====
section
/-! SUPPORT. What the shared operations and the step can do, said once: admission and acceptance (R202), performing (R211), the step
and runs of steps. -/

namespace Sys2Proof.Machine

@[simp] theorem State.busy_iff (s : State) : s.busy = true ↔ s.pending ≠ [] := by
  unfold State.busy
  cases s.pending <;> simp

@[simp] theorem State.busy_eq_false_iff (s : State) : s.busy = false ↔ s.pending = [] := by
  unfold State.busy
  cases s.pending <;> simp

/-- R202 row 1. -/
theorem accept_held {isInit : Bool} {regs : State → State} {evs : List Event} {s : State} (h : s.pending ≠ []) :
    accept isInit regs evs s = .next s := by
  simp [accept, State.admission, h]

/-- R202 row 3. -/
theorem accept_notConstructed {regs : State → State} {evs : List Event} {s : State}
    (h : s.pending = []) (hc : s.constructed = false) :
    accept false regs evs s = .refused .notConstructed := by
  simp [accept, State.admission, State.busy, h, hc]

/-- R202 row 4. -/
theorem accept_alreadyConstructed {regs : State → State} {evs : List Event} {s : State}
    (h : s.pending = []) (hc : s.constructed = true) :
    accept true regs evs s = .refused .alreadyConstructed := by
  simp [accept, State.admission, State.busy, h, hc]

/-- R202 row 5. -/
theorem accept_accepted {isInit : Bool} {regs : State → State} {evs : List Event} {s : State}
    (h : s.pending = []) (hc : s.constructed = !isInit) :
    accept isInit regs evs s = .next ((regs s).issue evs) := by
  cases isInit <;> simp_all [accept, State.admission, State.busy]

/-- All that `accept` can answer with a next state: the request was held, or it was accepted. -/
theorem accept_cases {isInit : Bool} {regs : State → State} {evs : List Event} {s t : State}
    (h : accept isInit regs evs s = .next t) :
    (s.pending ≠ [] ∧ t = s) ∨ (s.pending = [] ∧ s.constructed = !isInit ∧ t = (regs s).issue evs) := by
  by_cases hp : s.pending = []
  · by_cases hc : s.constructed = !isInit
    · rw [accept_accepted hp hc] at h
      exact .inr ⟨hp, hc, (Host.Outcome.next.inj h).symm⟩
    · cases isInit
      · rw [accept_notConstructed hp (by simpa using hc)] at h
        cases h
      · rw [accept_alreadyConstructed hp (by simpa using hc)] at h
        cases h
  · rw [accept_held hp] at h
    exact .inl ⟨hp, (Host.Outcome.next.inj h).symm⟩

/-- An acknowledging port completes the event. -/
theorem perform_next {s : State} {e : Event} {rest : List Event} (h : s.acks e = true) :
    perform e rest s = .next (s.complete e rest) := by
  cases e <;> simp_all [State.acks, perform]

/-- All that `perform` can answer with a next state. -/
theorem perform_cases {s t : State} {e : Event} {rest : List Event} (h : perform e rest s = .next t) :
    s.acks e = true ∧ t = s.complete e rest := by
  cases e <;> simp only [perform] at h <;> split at h <;> cases h <;> simp_all [State.acks]

theorem step_performing {s : State} {e : Event} {rest : List Event} (h : s.pending = e :: rest) :
    step s = perform e rest s := by
  simp [step, State.phase, h]

theorem step_idle {s : State} (h : s.pending = []) (hr : s.requests = []) : step s = .next s := by
  simp [step, State.phase, h, hr, idleStep]

/-- A presented word that decodes to a request is that request's meaning (R211). -/
theorem step_presented_instr {s : State} {r : Request} {rest : List Request} {i : Instr} (h : s.pending = [])
    (hr : s.requests = r :: rest) (hd : decode r = .instr i) : step s = exec i s := by
  simp [step, State.phase, h, hr, hd]

/-- A presented word with a reserved code is refused (R202 row 2). -/
theorem step_presented_reserved {s : State} {r : Request} {rest : List Request} {op : BitVec 3} (h : s.pending = [])
    (hr : s.requests = r :: rest) (hd : decode r = .reservedOp op) : step s = .refused (.reservedOp op) := by
  simp [step, State.phase, h, hr, hd, refuseReserved]

/-- All that a step can answer with a next state (R211): an event performed, a request taken, or an idle block as it was. -/
theorem step_cases {s t : State} (h : step s = .next t) :
    (∃ e rest, s.pending = e :: rest ∧ s.acks e = true ∧ t = s.complete e rest) ∨
    (∃ r rest i, s.pending = [] ∧ s.requests = r :: rest ∧ decode r = .instr i ∧ exec i s = .next t) ∨
    (s.pending = [] ∧ s.requests = [] ∧ t = s) := by
  rcases hp : s.pending with _ | ⟨e, rest⟩
  · rcases hr : s.requests with _ | ⟨r, rs⟩
    · rw [step_idle hp hr] at h
      exact .inr (.inr ⟨rfl, rfl, (Host.Outcome.next.inj h).symm⟩)
    · cases hd : decode r with
      | instr i =>
        rw [step_presented_instr hp hr hd] at h
        exact .inr (.inl ⟨r, rs, i, rfl, rfl, hd, h⟩)
      | reservedOp op =>
        rw [step_presented_reserved hp hr hd] at h
        cases h
  · rw [step_performing hp] at h
    obtain ⟨ha, ht⟩ := perform_cases h
    exact .inl ⟨e, rest, rfl, ha, ht⟩

@[simp] theorem runs_zero (s : State) : runs 0 s = .next s := rfl

/-- The machine behind the host's interface steps by `step`. -/
theorem runs_succ (n : Nat) (s : State) :
    runs (n + 1) s = match step s with
      | .next t => runs n t
      | .fault r => .fault r
      | .refused r => .refused r := by
  cases h : step s <;> simp [runs, Host.Core.run, show Sys2Proof.core.step s = step s from rfl, h] <;> rfl

theorem runs_succ_of_next {s t : State} (n : Nat) (h : step s = .next t) : runs (n + 1) s = runs n t := by
  rw [runs_succ, h]

theorem runs_succ_of_refused {s : State} {r : Refusal} (n : Nat) (h : step s = .refused r) :
    runs (n + 1) s = .refused r := by
  rw [runs_succ, h]

/-- A run of one more step that answers a next state took a first step. -/
theorem runs_succ_cases {s u : State} {n : Nat} (h : runs (n + 1) s = .next u) :
    ∃ t, step s = .next t ∧ runs n t = .next u := by
  rw [runs_succ] at h
  cases hs : step s with
  | next t => exact ⟨t, rfl, by simpa [hs] using h⟩
  | fault r => simp [hs] at h
  | refused r => simp [hs] at h

/-- Two runs one after the other are one run. -/
theorem runs_add {s t : State} (m n : Nat) (h : runs m s = .next t) : runs (m + n) s = runs n t := by
  induction m generalizing s with
  | zero =>
    cases h
    simp
  | succ m ih =>
    obtain ⟨u, hu, hm⟩ := runs_succ_cases h
    rw [Nat.add_right_comm, runs_succ_of_next _ hu, ih hm]

/-- A relation that every step keeps and that is reflexive and transitive holds along every run. -/
theorem runs_induct {P : State → State → Prop} (hrefl : ∀ s, P s s)
    (hstep : ∀ s t u, step s = .next t → P t u → P s u) :
    ∀ (n : Nat) (s t : State), runs n s = .next t → P s t := by
  intro n
  induction n with
  | zero =>
    intro s t h
    cases h
    exact hrefl s
  | succ n ih =>
    intro s u h
    obtain ⟨t, ht, hn⟩ := runs_succ_cases h
    exact hstep s t u ht (ih t u hn)

end Sys2Proof.Machine
end

