-- ==== Sys2Proof/Laws/Events.lean ====
section
/-! SUPPORT. What the event lists hold and how they are observed: lengths (R229), the bus after them (R26), the latches of a nibble
(R104), and the meaning of each request as one acceptance. -/

namespace Sys2Proof.Machine

@[simp] theorem busAfterAll_nil (bus : Byte) : busAfterAll bus [] = bus := rfl

@[simp] theorem busAfterAll_cons (bus : Byte) (e : Event) (es : List Event) :
    busAfterAll bus (e :: es) = busAfterAll (e.busAfter bus) es := rfl

@[simp] theorem busAfterAll_append (bus : Byte) (es fs : List Event) :
    busAfterAll bus (es ++ fs) = busAfterAll (busAfterAll bus es) fs := by
  simp [busAfterAll]

@[simp] theorem Event.busAfter_commit (b bus : Byte) : (Event.commit b).busAfter bus = b := rfl

@[simp] theorem Event.busAfter_waitExt (bus : Byte) : Event.waitExt.busAfter bus = bus := rfl

@[simp] theorem commitsIn_nil : commitsIn [] = [] := rfl

@[simp] theorem commitsIn_cons_commit (b : Byte) (es : List Event) :
    commitsIn (.commit b :: es) = b :: commitsIn es := rfl

@[simp] theorem commitsIn_cons_waitExt (es : List Event) : commitsIn (.waitExt :: es) = commitsIn es := rfl

@[simp] theorem commitsIn_append (es fs : List Event) : commitsIn (es ++ fs) = commitsIn es ++ commitsIn fs := by
  simp [commitsIn]

/-- The bus after some events holds their last commit's byte (R26, R54). -/
theorem busAfterAll_eq_lastCommit (bus : Byte) (es : List Event) : busAfterAll bus es = lastCommit bus es := by
  induction es generalizing bus with
  | nil => rfl
  | cons e es ih =>
    cases e with
    | commit b => simp only [busAfterAll_cons, Event.busAfter_commit, ih, lastCommit, commitsIn_cons_commit, List.getLastD_cons]
    | waitExt => simp only [busAfterAll_cons, Event.busAfter_waitExt, ih, lastCommit, commitsIn_cons_waitExt]

@[simp] theorem nib_length (v : Byte) (rs : Rs) (m : Mask) : (nib v rs m).length = 2 := rfl

@[simp] theorem byteEv_length (b : Byte) (rs : Rs) (m : Mask) : (byteEv b rs m).length = 4 := rfl

/-- What is latched during one list and then another (R104). -/
theorem receives_append (k : Slot) (bus : Byte) (es fs : List Event) :
    receives k bus (es ++ fs) = receives k bus es ++ receives k (busAfterAll bus es) fs := by
  induction es generalizing bus with
  | nil => rfl
  | cons e es ih => cases e <;> simp [receives, ih]

/-- A bus that does not change latches nothing (R104). -/
@[simp] theorem latchAt_self (k : Slot) (bus : Byte) : latchAt k bus bus = none := by
  simp [latchAt]

/-- A nibble transfer from a bus with the enables low is latched by exactly the slots of its mask (R104). -/
theorem receives_nib (k : Slot) (bus v : Byte) (rs : Rs) (m : Mask) (h : enableField bus = noMask) :
    receives k bus (nib v rs m) = if m.getLsbD k.val then [⟨rs, v.extractLsb' 0 4⟩] else [] := by
  have hk : enableLine k bus = false := by simp [enableLine_eq, h, noMask]
  simp only [nib, receives, latchAt, hk, enableLine_busByte, noMask, BitVec.getLsbD_zero]
  cases m.getLsbD k.val <;> simp

@[simp] theorem busAfterAll_nib (bus v : Byte) (rs : Rs) (m : Mask) :
    busAfterAll bus (nib v rs m) = busByte noMask rs v := rfl

/-- Each request is one acceptance (R202): its register writes and its events. -/
theorem exec_select (m : Mask) (s : State) : exec (.select m) s = accept false (fun t => t.setMask m) [] s := rfl

theorem exec_write (b : Byte) (s : State) : exec (.write b) s = accept false id (byteEv b rsData s.mask) s := rfl

theorem exec_command (op p : Byte) (s : State) :
    exec (.command op p) s = accept false id (cmdEv op p s.mask) s := rfl

theorem exec_reset (s : State) :
    exec .reset s = accept false (fun t => t.restart Config.resetAllSlots)
      (resetBody (if Config.resetAllSlots then allMask else s.mask) s.fs s.dc s.em) s := rfl

theorem exec_init (fs dc em : Byte) (s : State) :
    exec (.init fs dc em) s = accept true (fun t => t.construct fs dc em) (resetBody allMask fs dc em) s := rfl

/-- SELECT, WRITE, COMMAND, RESET and INIT as one acceptance each (R202). -/
theorem exec_eq_accept (i : Instr) (s : State) :
    ∃ isInit regs, exec i s = accept isInit regs (eventsOf i s) s ∧ (admits i s ↔ s.constructed = !isInit) := by
  cases i with
  | select m => exact ⟨false, fun t => t.setMask m, rfl, by simp [admits]⟩
  | write b => exact ⟨false, id, rfl, by simp [admits]⟩
  | command op p => exact ⟨false, id, rfl, by simp [admits]⟩
  | reset => exact ⟨false, fun t => t.restart Config.resetAllSlots, rfl, by simp [admits]⟩
  | init fs dc em => exact ⟨true, fun t => t.construct fs dc em, rfl, by simp [admits]⟩

end Sys2Proof.Machine
end

