-- ==== Sys2Proof/Laws/PerInstr.lean ====
section
/-! SUPPORT. Laws made per instruction: the word the encoder writes is canonical, every ignored field 0 (R62, R74). -/

namespace Sys2Proof.Laws.EncodeCanonical

/-- The encoder's word has a used `OP` and 0 in every ignored field. -/
def Statement (i : Instr) : Prop := (encode i).canonical = true

theorem select (m : Mask) : Statement (.select m) := by
  have h : (m.setWidth 8).extractLsb' 3 5 = 0#5 := by
    apply BitVec.eq_of_getLsbD_eq
    intro j hj
    simp only [BitVec.getLsbD_extractLsb', BitVec.getLsbD_setWidth]
    interval_cases j <;> simp
  simp [Statement, encode, Request.canonical, h]

theorem write (b : Byte) : Statement (.write b) := by
  simp [Statement, encode, Request.canonical, opSelect, opWrite]

theorem command (op p : Byte) : Statement (.command op p) := by
  simp [Statement, encode, Request.canonical, opSelect, opWrite, opCommand]

theorem reset : Statement .reset := by
  simp [Statement, encode, Request.canonical, opSelect, opWrite, opCommand, opReset]

theorem init (fs dc em : Byte) : Statement (.init fs dc em) := by
  simp [Statement, encode, Request.canonical, opSelect, opWrite, opCommand, opReset, opInit]

end Sys2Proof.Laws.EncodeCanonical
end

