-- ==== Sys2Proof/Tests/Slice0.lean ====
section
/-! SUPPORT. The model's own tests: expected values are those of spec/95_test_vectors.md and the rules' worked examples, or worked by
hand from the rules; and for every statement with hypotheses, states and operands that meet them. -/

open Sys2Proof Sys2Proof.Machine

namespace Sys2Proof.Tests

/-- A session after `init 0x08, 0x04, 0x00` has run, with a mask and words on the port. -/
def session (m : Mask) (words : List Request) : State where
  constructed := true
  mask := m
  fs := 0x08#8
  dc := 0x04#8
  em := 0x00#8
  rstate := .ready
  pending := []
  bus := 0x02#8
  trace := [.commit 0x02#8]
  elapsed := 0
  requests := words
  transportAcks := true
  waitAcks := true

/-- A block before INIT, with words on the port. -/
def fresh (words : List Request) : State where
  constructed := false
  mask := 0b110#3
  fs := 0xAA#8
  dc := 0xBB#8
  em := 0xCC#8
  rstate := .unknown
  pending := []
  bus := 0xFF#8
  trace := []
  elapsed := 0
  requests := words
  transportAcks := true
  waitAcks := true

/-- A session with events still to perform. -/
def busyWith (evs : List Event) (words : List Request) : State := { session 0b001#3 words with pending := evs }

/-- Whether an outcome is a next state with a property. -/
def nextIs (o : Host.Outcome State Fault Refusal) (p : State → Bool) : Bool :=
  match o with
  | .next t => p t
  | .fault _ => false
  | .refused _ => false

/-- Whether an outcome is the refusal given. -/
def refusedIs (o : Host.Outcome State Fault Refusal) (r : Refusal) : Bool :=
  match o with
  | .next _ => false
  | .fault _ => false
  | .refused q => decide (q = r)

/-- A trace in the notation of 95_test_vectors.md: a byte for a commit, `none` for `W`. -/
def shown (es : List Event) : List (Option Byte) :=
  es.map (fun e => match e with | .commit b => some b | .waitExt => none)

/-! ### Well-formedness: an ill-formed line for each check of R74 and R75 -/

theorem test_select_8_refused : (Line.select 8).wellFormed = false ∧ (Line.select 7).wellFormed = true := by decide
theorem test_write_256_refused : (Line.write 256).wellFormed = false ∧ (Line.write 255).wellFormed = true := by decide
theorem test_command_op_refused : (Line.command 256 0).wellFormed = false := by decide
theorem test_command_param_refused : (Line.command 0 256).wellFormed = false := by decide
theorem test_init_fs_refused : (Line.init 256 0 0).wellFormed = false := by decide
theorem test_init_dc_refused : (Line.init 0 256 0).wellFormed = false := by decide
theorem test_init_em_refused : (Line.init 0 0 256).wellFormed = false := by decide
theorem test_text_refused : (Line.writeText [0x48, 256]).wellFormed = false := by decide
theorem test_entryMode_refused : (Line.entryMode 256).wellFormed = false := by decide
theorem test_displayControl_refused : (Line.displayControl 256).wellFormed = false := by decide
theorem test_shift_refused : (Line.shift 256).wellFormed = false := by decide
theorem test_functionSet_refused : (Line.functionSet 256).wellFormed = false := by decide
theorem test_setCgram_64_refused : (Line.setCgram 64).wellFormed = false ∧ (Line.setCgram 63).wellFormed = true := by
  decide
theorem test_setDdram_128_refused : (Line.setDdram 128).wellFormed = false ∧ (Line.setDdram 127).wellFormed = true := by
  decide

/-! ### Decoding: words written out bit by bit from R60 and R61 -/

theorem test_decode_select :
    decode 0b001_00001101_00010010_00110100#27 = .instr (.select 0b101#3) := by decide
theorem test_decode_write :
    decode 0b010_01000001_10101010_10111011#27 = .instr (.write 0x41#8) := by decide
theorem test_decode_command :
    decode 0b011_10000000_01000000_11001100#27 = .instr (.command 0x80#8 0x40#8) := by decide
theorem test_decode_reset :
    decode 0b100_11111111_11111111_11111111#27 = .instr .reset := by decide
theorem test_decode_init :
    decode 0b101_00001000_00000100_00000010#27 = .instr (.init 0x08#8 0x04#8 0x02#8) := by decide
theorem test_decode_reserved :
    decode 0b000_00000000_00000000_00000000#27 = .reservedOp 0b000#3 ∧
    decode 0b110_11111111_00000000_11111111#27 = .reservedOp 0b110#3 ∧
    decode 0b111_00000001_00000010_00000011#27 = .reservedOp 0b111#3 := by decide
theorem test_table_word :
    decodeTableWord 32 0x3010200 = some (.command 0x01#8 0x02#8) ∧ decodeTableWord 32 0x7010203 = none ∧
    decodeTableWord 32 0x8000000 = none := by decide
theorem test_encode_words :
    encode (.select 0b010#3) = 0x1020000#27 ∧ encode (.write 0x48#8) = 0x2480000#27 ∧
    encode (.command 0x00#8 0x01#8) = 0x3000100#27 ∧ encode .reset = 0x4000000#27 ∧
    encode (.init 0x08#8 0x04#8 0x00#8) = 0x5080400#27 := by decide

/-! ### Nibbles and bytes (95 §2.1, §2.2) -/

theorem test_nib_wide_value : shown (nib 0x1C#8 0#1 0b010#3) = [some 0x4C#8, some 0x0C#8] := by decide
theorem test_nib_all : shown (nib 0x0F#8 1#1 0b111#3) = [some 0xFF#8, some 0x1F#8] := by decide
theorem test_byte_A5 :
    shown (byteEv 0xA5#8 1#1 0b110#3) = [some 0xDA#8, some 0x1A#8, some 0xD5#8, some 0x15#8] := by decide

/-! ### The requests (95 §2.3 to §2.6) -/

theorem test_select_drops_high_bits :
    nextIs (step (session 0b001#3 [0x10D0000#27])) (fun t =>
      decide (t.mask = 0b101#3) && decide (t.pending = []) && decide (t.requests = []) && decide (t.bus = 0x02#8)) = true := by
  decide

theorem test_select_before_init : refusedIs (step (fresh [0x1020000#27])) .notConstructed = true := by decide

theorem test_write_48_slot_1 :
    nextIs (step (session 0b010#3 [0x2480000#27])) (fun t =>
      decide (shown t.pending = [some 0x54#8, some 0x14#8, some 0x58#8, some 0x18#8])) = true := by decide

theorem test_write_before_init : refusedIs (step (fresh [0x2410000#27])) .notConstructed = true := by decide

theorem test_command_or_not_sum :
    nextIs (step (session 0b111#3 [0x3203000#27])) (fun t =>
      decide (shown t.pending = [some 0xE3#8, some 0x03#8, some 0xE0#8, some 0x00#8])) = true := by decide

theorem test_command_wait_reads_opcode :
    nextIs (step (session 0b001#3 [0x3010200#27])) (fun t =>
      decide (shown t.pending = [some 0x20#8, some 0x00#8, some 0x23#8, some 0x03#8, none])) = true ∧
    nextIs (step (session 0b001#3 [0x3000100#27])) (fun t =>
      decide (shown t.pending = [some 0x20#8, some 0x00#8, some 0x21#8, some 0x01#8])) = true := by decide

/-- Vector L1-A: INIT's thirty events, and `MASK = 0b001` after it. -/
theorem test_init_scenario_A :
    nextIs (step (fresh [0x5080400#27])) (fun t =>
      decide (t.mask = 0b001#3) && t.constructed && decide (t.fs = 0x08#8) && decide (t.dc = 0x04#8) &&
      decide (t.em = 0x00#8) && decide (t.rstate = .unknown) &&
      decide (shown t.pending =
        [some 0xE3#8, some 0x03#8, some 0xE3#8, some 0x03#8, some 0xE3#8, some 0x03#8, some 0xE2#8, some 0x02#8,
         some 0xE2#8, some 0x02#8, some 0xE8#8, some 0x08#8, some 0xE0#8, some 0x00#8, some 0xEC#8, some 0x0C#8,
         some 0xE0#8, some 0x00#8, some 0xE4#8, some 0x04#8, some 0xE0#8, some 0x00#8, some 0xE1#8, some 0x01#8, none,
         some 0xE0#8, some 0x00#8, some 0xE2#8, some 0x02#8, none])) = true := by decide

theorem test_init_twice : refusedIs (step (session 0b001#3 [0x5080400#27])) .alreadyConstructed = true := by decide

/-- RESET with `RESET_ALL_SLOTS = false`, `MASK = 0b010` (worked example of R142). -/
theorem test_reset_current_mask :
    nextIs (resetRequest false (session 0b010#3 [])) (fun t =>
      decide (t.mask = 0b010#3) && decide (t.rstate = .unknown) &&
      decide (shown t.pending =
        [some 0x43#8, some 0x03#8, some 0x43#8, some 0x03#8, some 0x43#8, some 0x03#8, some 0x42#8, some 0x02#8,
         some 0x42#8, some 0x02#8, some 0x48#8, some 0x08#8, some 0x40#8, some 0x00#8, some 0x4C#8, some 0x0C#8,
         some 0x40#8, some 0x00#8, some 0x44#8, some 0x04#8, some 0x40#8, some 0x00#8, some 0x41#8, some 0x01#8, none,
         some 0x40#8, some 0x00#8, some 0x42#8, some 0x02#8, none])) = true := by decide

/-- RESET with `RESET_ALL_SLOTS = true`: the body of L1-A, and `MASK = 0b001` after it. -/
theorem test_reset_all_slots :
    nextIs (resetRequest true (session 0b010#3 [])) (fun t =>
      decide (t.mask = 0b001#3) && decide (t.pending = resetBody 0b111#3 0x08#8 0x04#8 0x00#8)) = true := by decide

/-! ### The step -/

theorem test_reserved_refused : refusedIs (step (session 0b001#3 [0x7010203#27])) (.reservedOp 0b111#3) = true := by decide

theorem test_busy_holds_word :
    nextIs (step (busyWith [.commit 0x34#8, .commit 0x14#8] [0x1020000#27])) (fun t =>
      decide (t.bus = 0x34#8) && decide (t.pending = [.commit 0x14#8]) && decide (t.requests = [0x1020000#27]) &&
      decide (t.trace = [.commit 0x02#8, .commit 0x34#8])) = true := by decide

theorem test_fetch_word_from_reset :
    nextIs (step (State.reset.withFetchWord 32 0x5080400)) (fun t => t.constructed && decide (t.pending.length = 30)) = true := by
  decide

theorem test_rstate_thresholds :
    RState.advance .unknown 24 = .forcedEightBit ∧ RState.advance .forcedEightBit 22 = .fourBitConfirmed ∧
    RState.advance .fourBitConfirmed 10 = .configured ∧ RState.advance .configured 0 = .ready ∧
    RState.advance .unknown 25 = .unknown ∧ RState.advance .ready 0 = .ready := by decide

/-- 95 §2.8: after `select 0b010; write 0x48`, slot 1 latches `(1,4) (1,8)`, slot 0 nothing. -/
theorem test_observer_write :
    receives 1 0x02#8 (byteEv 0x48#8 1#1 0b010#3) = [⟨1#1, 4#4⟩, ⟨1#1, 8#4⟩] ∧
    receives 0 0x02#8 (byteEv 0x48#8 1#1 0b010#3) = [] := by decide

/-- 95 §2.8: INIT's fourteen nibbles at slot 2, from a bus that powered up with every line high. -/
theorem test_observer_init :
    (receives 2 0xFF#8 (resetBody 0b111#3 0x08#8 0x04#8 0x00#8)).map (fun l => l.d) =
      [3#4, 3#4, 3#4, 2#4, 2#4, 8#4, 0#4, 12#4, 0#4, 4#4, 0#4, 1#4, 0#4, 2#4] := by decide

/-! ### The assembler (R74, R75) -/

theorem test_assemble_command_line :
    assembleLine ['c', 'o', 'm', 'm', 'a', 'n', 'd', ' ', '0', 'x', '0', '1', ',', ' ', '0', 'b', '1', '0', ' ', ';', 'w'] =
      some [0x3010200#27] := by decide
theorem test_assemble_write_char :
    assembleLine ['w', 'r', 'i', 't', 'e', ' ', singleQuote, 'H', singleQuote] = some [0x2480000#27] := by decide
theorem test_assemble_select_8 :
    assembleLine ['s', 'e', 'l', 'e', 'c', 't', ' ', '8'] = none := by decide
theorem test_assemble_text :
    assembleSource
      [['w', 'r', 'i', 't', 'e', '_', 't', 'e', 'x', 't', ' ', doubleQuote, 'H', 'i', doubleQuote],
       [';', ' ', 'x'], ['c', 'l', 'e', 'a', 'r']] =
      some [0x2480000#27, 0x2690000#27, 0x3010000#27] := by decide

/-! ### Witnesses: states and operands that meet the statements' hypotheses -/

theorem witness_DecodeOfEncodeIsTheRequest : (Instr.init 0xFF#8 0x00#8 0x80#8).wellFormed = true := by decide

theorem witness_EncodeOfDecodeIsTheWord :
    Request.canonical 0x1070000#27 = true ∧ decode 0x1070000#27 = .instr (.select 0b111#3) ∧
    Request.canonical 0x50804FF#27 = true ∧ decode 0x50804FF#27 = .instr (.init 0x08#8 0x04#8 0xFF#8) := by decide

theorem witness_IgnoredFieldsHaveNoEffect :
    (session 0b001#3 []).pending = [] ∧
    (0xF8#8).extractLsb' 0 3 = (0x00#8).extractLsb' 0 3 ∧
    pack 1#3 0xF8#8 0x12#8 0x34#8 ≠ pack 1#3 0x00#8 0x00#8 0x00#8 ∧
    pack 2#3 0x41#8 0xAA#8 0xBB#8 ≠ pack 2#3 0x41#8 0x00#8 0x00#8 ∧
    pack 3#3 0x01#8 0x00#8 0xCC#8 ≠ pack 3#3 0x01#8 0x00#8 0x00#8 ∧
    pack 4#3 0x01#8 0x02#8 0x03#8 ≠ pack 4#3 0x00#8 0x00#8 0x00#8 := by decide

theorem witness_PseudoInstructionsExpand : ∀ c ∈ [0, 0x48, 255], c < 256 := by decide

theorem witness_ExtendedWaitReadsTheOpcodeAlone :
    (0x01#8 = 0x01#8 ∨ 0x01#8 = 0x02#8) ∧ (0x02#8 = 0x01#8 ∨ 0x02#8 = 0x02#8) ∧
    (0x00#8 ≠ 0x01#8 ∧ 0x00#8 ≠ 0x02#8) ∧ (0x03#8 ≠ 0x01#8 ∧ 0x03#8 ≠ 0x02#8) := by decide

theorem witness_EmptyMaskRaisesNoEnable :
    (session 0b000#3 []).mask = 0b000#3 ∧ admits (.command 0x01#8 0x00#8) (session 0b000#3 []) ∧
    (session 0b000#3 []).constructed = true ∧ (Instr.command 0x01#8 0x00#8 = .reset → Config.resetAllSlots = false) :=
  ⟨rfl, rfl, rfl, fun h => by cases h⟩

/-- The hypotheses of the four statements of SELECT, WRITE, COMMAND and RESET: accepted, refused, held. -/
theorem witness_session_request_clauses :
    ((session 0b111#3 []).pending = [] ∧ (session 0b111#3 []).constructed = true) ∧
    ((fresh []).pending = [] ∧ (fresh []).constructed = false) ∧
    (busyWith [.waitExt] []).pending ≠ [] := by decide

/-- Both values of the open parameter are covered by RESET's clauses. -/
theorem witness_ResetRerunsTheBody : Config.resetAllSlots = false ∨ Config.resetAllSlots = true := by
  cases Config.resetAllSlots <;> simp

/-- INIT's clauses: accepted, refused, held. -/
theorem witness_InitConstructsTheSession :
    ((fresh []).pending = [] ∧ (fresh []).constructed = false) ∧
    ((session 0b001#3 []).pending = [] ∧ (session 0b001#3 []).constructed = true) ∧
    ({ fresh [] with pending := [.waitExt] } : State).pending ≠ [] := by decide

theorem witness_AcceptanceFrame :
    (∃ t, exec (.select 0b010#3) (session 0b001#3 []) = .next t) ∧
    (∃ t, exec (.write 0x41#8) (session 0b001#3 []) = .next t) ∧
    (∃ t, exec (.command 0x02#8 0x00#8) (session 0b001#3 []) = .next t) ∧
    (∃ t, exec .reset (session 0b001#3 []) = .next t) ∧
    (∃ t, exec (.init 0x08#8 0x04#8 0x00#8) (fresh []) = .next t) :=
  ⟨⟨_, rfl⟩, ⟨_, rfl⟩, ⟨_, rfl⟩, ⟨_, rfl⟩, ⟨_, rfl⟩⟩

theorem witness_AdmittedRequestsAreAccepted :
    admits (.select 0b000#3) (session 0b001#3 []) ∧ admits (.write 0x00#8) (session 0b001#3 []) ∧
    admits (.command 0xFF#8 0xFF#8) (session 0b001#3 []) ∧ admits .reset (session 0b001#3 []) ∧
    admits (.init 0x10#8 0x00#8 0x00#8) (fresh []) :=
  ⟨rfl, rfl, rfl, rfl, rfl⟩

/-- A state for each row of R202. -/
theorem witness_AdmissionRowsInOrder :
    (busyWith [.commit 0x14#8] [0x0000000#27]).pending ≠ [] ∧
    Request.op 0x0FFFFFF#27 = 0#3 ∧ Request.op 0x6000000#27 = 6#3 ∧ Request.op 0x7FFFFFF#27 = 7#3 ∧
    (Request.op 0x2410000#27 ≠ 5#3 ∧ (fresh [0x2410000#27]).constructed = false) ∧
    (Request.op 0x5080400#27 = 5#3 ∧ (session 0b001#3 [0x5080400#27]).constructed = true) ∧
    (Request.op 0x5080400#27 = 5#3 ↔ (fresh [0x5080400#27]).constructed = false) ∧
    (Request.op 0x4000000#27 = 5#3 ↔ (session 0b001#3 [0x4000000#27]).constructed = false) := by decide

theorem witness_StepRunsThePresentedRequest :
    (session 0b001#3 [0x2410000#27]).pending = [] ∧
    (session 0b001#3 [0x2410000#27]).requests.head? = some 0x2410000#27 ∧
    (Instr.write 0x41#8).wellFormed = true ∧ decode 0x2410000#27 = .instr (.write 0x41#8) := by decide

theorem witness_StepPerformsTheHeadEvent :
    (busyWith [.commit 0x14#8] []).acks (.commit 0x14#8) = true ∧ (busyWith [.waitExt] []).acks .waitExt = true := by decide

theorem witness_IdleBlockKeepsItsState :
    (session 0b001#3 []).pending = [] ∧ (session 0b001#3 []).requests = [] := by decide

theorem witness_StuckExactlyOnASilentPort :
    (busyWith [.waitExt] []).fair ∧
    ({ busyWith [.commit 0x14#8] [] with transportAcks := false } : State).acks (.commit 0x14#8) = false :=
  ⟨⟨rfl, rfl⟩, rfl⟩

theorem witness_EventsArePerformedInOrder :
    (busyWith [.commit 0x34#8, .commit 0x14#8, .waitExt] []).fair ∧
    3 ≤ (busyWith [.commit 0x34#8, .commit 0x14#8, .waitExt] []).pending.length :=
  ⟨⟨rfl, rfl⟩, by decide⟩

theorem witness_WaitTakesAtLeastTExt :
    ((busyWith [.waitExt] []).pending = .waitExt :: [] ∧ (busyWith [.waitExt] []).waitAcks = true) ∧
    ({ busyWith [.waitExt] [] with waitAcks := false } : State).waitAcks = false := by decide

/-- A run of steps that answers a next state: the hypothesis of the statements about runs. -/
theorem witness_runs :
    (session 0b001#3 []).constructed = true ∧ ∃ t, runs 2 (busyWith [.waitExt] []) = .next t :=
  ⟨rfl, ⟨_, rfl⟩⟩

theorem witness_UnspecifiedRegistersAreNotObservable :
    (fresh [0x5080400#27]).constructed = false ∧ (fresh [0x5080400#27]).pending = [] := by decide

theorem witness_BusIsNeverRead : (busyWith [.commit 0x14#8] []).pending = .commit 0x14#8 :: [] := by decide

theorem session_sequenced (m : Mask) (words : List Request) : (session m words).sequenced :=
  ⟨fun _ => .inl ⟨.inl ⟨0x00#8, List.nil_suffix⟩, rfl⟩, fun h => by cases h⟩

theorem fresh_sequenced (words : List Request) : (fresh words).sequenced :=
  ⟨fun h => (by cases h), fun _ => ⟨rfl, rfl⟩⟩

theorem witness_StepKeepsSequenced :
    (session 0b001#3 [0x2410000#27]).sequenced ∧ ∃ t, step (session 0b001#3 [0x2410000#27]) = .next t :=
  ⟨session_sequenced _ _, ⟨_, rfl⟩⟩

theorem witness_IdleSessionIsReady :
    ((session 0b001#3 [0x1020000#27]).sequenced ∧
      ∃ t, step (session 0b001#3 [0x1020000#27]) = .next t ∧ t.constructed = true ∧ t.pending = []) ∧
    ((fresh []).sequenced ∧ ∃ t, step (fresh []) = .next t ∧ t.constructed = false) :=
  ⟨⟨session_sequenced _ _, _, rfl, rfl, rfl⟩, ⟨fresh_sequenced _, _, rfl, rfl⟩⟩

theorem witness_RStateMovesAlongTheBody :
    (fresh []).pending = [] ∧ (fresh []).fair ∧
    (∃ t, exec (.init 0x08#8 0x04#8 0x00#8) (fresh []) = .next t) ∧ (∃ t, exec .reset (session 0b001#3 []) = .next t) ∧
    (0 ≤ 30 ∧ 6 ≤ 30 ∧ 8 ≤ 30 ∧ 20 ≤ 30 ∧ 30 ≤ 30) :=
  ⟨rfl, ⟨rfl, rfl⟩, ⟨_, rfl⟩, ⟨_, rfl⟩, by decide⟩

theorem witness_MaskIsWrittenByThreeRequests :
    ∃ t, step (session 0b001#3 [0x1020000#27]) = .next t ∧ t.mask ≠ (session 0b001#3 [0x1020000#27]).mask :=
  ⟨_, rfl, by decide⟩

theorem witness_StepKeepsBusFollowsTrace :
    (session 0b001#3 [0x2410000#27]).busFollowsTrace 0x55#8 ∧ ∃ t, step (session 0b001#3 [0x2410000#27]) = .next t :=
  ⟨rfl, ⟨_, rfl⟩⟩

theorem witness_StepKeepsEdgesIntended :
    (session 0b001#3 [0x2410000#27]).edgesIntended ∧ ∃ t, step (session 0b001#3 [0x2410000#27]) = .next t :=
  ⟨fun _ => .inl ⟨rfl, rfl⟩, ⟨_, rfl⟩⟩

/-- A session between the two phases of a nibble for slot 0. -/
def midNibble : State := { busyWith [.commit 0x14#8] [] with bus := 0x34#8 }

theorem witness_FallingEdgeIsPhaseTwo :
    midNibble.edgesIntended ∧ midNibble.constructed = true ∧
    ∃ t, step midNibble = .next t ∧ enableLine 0 midNibble.bus = true ∧ enableLine 0 t.bus = false :=
  ⟨fun _ => .inr (.inl ⟨[], rfl, rfl⟩), rfl, ⟨_, rfl, rfl, rfl⟩⟩

theorem witness_RequestReachesExactlyTheNamedSlots : enableField 0x1F#8 = 0b000#3 := by decide

theorem witness_LatchHistoryGrowsByTheEdge :
    (session 0b001#3 [0x2410000#27]).busFollowsTrace Config.busPowerOn ∧
    ∃ t, step (session 0b001#3 [0x2410000#27]) = .next t :=
  ⟨rfl, ⟨_, rfl⟩⟩

theorem witness_AdmittedRequestRunsToCompletion :
    (session 0b001#3 [0x3010000#27]).sequenced ∧ (session 0b001#3 [0x3010000#27]).fair ∧
    (session 0b001#3 [0x3010000#27]).pending = [] ∧ (session 0b001#3 [0x3010000#27]).requests = 0x3010000#27 :: [] ∧
    decode 0x3010000#27 = .instr (.command 0x01#8 0x00#8) ∧
    admits (.command 0x01#8 0x00#8) (session 0b001#3 [0x3010000#27]) ∧
    ((fresh [0x5080400#27]).sequenced ∧ admits (.init 0x08#8 0x04#8 0x00#8) (fresh [0x5080400#27])) :=
  ⟨session_sequenced _ _, ⟨rfl, rfl⟩, rfl, rfl, by decide, rfl, fresh_sequenced _, rfl⟩

theorem witness_StateAfterInit :
    (fresh [0x5080400#27]).constructed = false ∧ (fresh [0x5080400#27]).pending = [] ∧ (fresh [0x5080400#27]).fair ∧
    (fresh [0x5080400#27]).requests = encode (.init 0x08#8 0x04#8 0x00#8) :: [] :=
  ⟨rfl, rfl, ⟨rfl, rfl⟩, by decide⟩

theorem witness_WriteTextTrace :
    (session 0b010#3 [0x2480000#27, 0x2690000#27]).constructed = true ∧
    (session 0b010#3 [0x2480000#27, 0x2690000#27]).pending = [] ∧
    (session 0b010#3 [0x2480000#27, 0x2690000#27]).fair ∧
    (session 0b010#3 [0x2480000#27, 0x2690000#27]).requests =
      [0x48#8, 0x69#8].map (fun c => encode (.write c)) ++ [] :=
  ⟨rfl, rfl, ⟨rfl, rfl⟩, by decide⟩

/-- A SELECT followed by a WRITE word, which does not change the mask, and a run of five steps. -/
theorem witness_SelectedMaskLastsUntilChanged :
    (session 0b001#3 [0x1020000#27, 0x2410000#27]).pending = [] ∧
    (session 0b001#3 [0x1020000#27, 0x2410000#27]).constructed = true ∧
    ∃ u, exec (.select 0b010#3) (session 0b001#3 [0x1020000#27, 0x2410000#27]) = .next u ∧
      (∀ r ∈ u.requests, ∀ i, decode r = .instr i →
        (∀ m', i ≠ .select m') ∧ (i = .reset → Config.resetAllSlots = false)) ∧
      ∃ t, runs 5 u = .next t ∧ t.pending = [] := by
  refine ⟨rfl, rfl, _, rfl, ?_, _, rfl, rfl⟩
  intro r hr i hd
  have hr' : r = 0x2410000#27 := List.mem_singleton.1 hr
  have hi : i = .write 0x41#8 := by
    subst hr'
    exact (Decoded.instr.inj hd).symm
  subst hi
  exact ⟨fun m' h => (by cases h), fun h => (by cases h)⟩

theorem witness_FairRunsEnd : (session 0b010#3 [0x2480000#27, 0x0000000#27]).fair := ⟨rfl, rfl⟩

end Sys2Proof.Tests
end

/-! The proofs of the statements about the block's state. First what taking a request and performing an event do to a state, said once
through the model's functions; then the invariants, the noninterference statements and the runs of whole requests. -/

namespace Sys2Proof.Machine

/-! ### Taking a request -/

/-- The register writes of an accepted request (R20's column 'written by'; R142, R143, R170). -/
def State.writeRegs (s : State) (i : Instr) : State :=
  match i with
  | .select m => s.setMask m
  | .write _ => s
  | .command _ _ => s
  | .reset => s.restart Config.resetAllSlots
  | .init fs dc em => s.construct fs dc em

/-- The state when a request has been accepted (R211 Accept). -/
def State.accepted (s : State) (i : Instr) : State := (s.writeRegs i).issue (eventsOf i s)

/-- Whether a request is INIT, the one that admission treats apart (R202 rows 3 and 4). -/
def isInitRequest (i : Instr) : Bool :=
  match i with
  | .init _ _ _ => true
  | .select _ => false
  | .write _ => false
  | .command _ _ => false
  | .reset => false

/-- The reason for which an idle block refuses a request (R202 rows 3 and 4). -/
def refusalOf (i : Instr) : Refusal := if isInitRequest i then .alreadyConstructed else .notConstructed

/-- Every request is one acceptance, of its register writes and its events (R202). -/
theorem exec_eq (i : Instr) (s : State) :
    exec i s = accept (isInitRequest i) (fun t => t.writeRegs i) (eventsOf i s) s := by
  cases i <;> rfl

theorem admits_iff (i : Instr) (s : State) : admits i s ↔ s.constructed = !isInitRequest i := by
  cases i <;> rfl

section
variable (s : State) (i : Instr)

@[simp] theorem State.accepted_pending : (s.accepted i).pending = eventsOf i s := rfl

@[simp] theorem State.accepted_requests : (s.accepted i).requests = s.requests.tail := by
  cases i <;> rfl

@[simp] theorem State.accepted_bus : (s.accepted i).bus = s.bus := by
  cases i <;> rfl

@[simp] theorem State.accepted_trace : (s.accepted i).trace = s.trace := by
  cases i <;> rfl

@[simp] theorem State.accepted_elapsed : (s.accepted i).elapsed = s.elapsed := by
  cases i <;> rfl

@[simp] theorem State.accepted_transportAcks : (s.accepted i).transportAcks = s.transportAcks := by
  cases i <;> rfl

@[simp] theorem State.accepted_waitAcks : (s.accepted i).waitAcks = s.waitAcks := by
  cases i <;> rfl

end

/-- An accepted request finds a session or makes one (R143, R202). -/
theorem State.accepted_constructed {s : State} {i : Instr} (ha : admits i s) : (s.accepted i).constructed = true := by
  cases i with
  | init fs dc em => rfl
  | _ => exact ha

/-- An idle block accepts a request it admits (R202 row 5). -/
theorem exec_of_admits {s : State} {i : Instr} (h : s.pending = []) (ha : admits i s) :
    exec i s = .next (s.accepted i) := by
  rw [exec_eq, accept_accepted h ((admits_iff i s).1 ha), State.accepted]

/-- An idle block refuses a request that the session's existence does not ask for (R202 rows 3 and 4). -/
theorem exec_of_not_admits {s : State} {i : Instr} (h : s.pending = []) (ha : ¬ admits i s) :
    exec i s = .refused (refusalOf i) := by
  rw [admits_iff] at ha
  rw [exec_eq, refusalOf]
  cases hi : isInitRequest i with
  | false => exact accept_notConstructed h (by simpa [hi] using ha)
  | true => exact accept_alreadyConstructed h (by simpa [hi] using ha)

/-- All that a request's meaning can answer with a next state. -/
theorem exec_cases {i : Instr} {s t : State} (h : exec i s = .next t) :
    (s.pending ≠ [] ∧ t = s) ∨ (s.pending = [] ∧ admits i s ∧ t = s.accepted i) := by
  rw [exec_eq] at h
  obtain ⟨hp, ht⟩ | ⟨hp, hc, ht⟩ := accept_cases h
  · exact .inl ⟨hp, ht⟩
  · exact .inr ⟨hp, (admits_iff i s).2 hc, ht⟩

/-- All that a step can answer with a next state, each next state given (R210, R211). -/
theorem step_next_cases {s t : State} (h : step s = .next t) :
    (∃ e rest, s.pending = e :: rest ∧ t = s.complete e rest) ∨
    (∃ r rest i, s.pending = [] ∧ s.requests = r :: rest ∧ decode r = .instr i ∧ admits i s ∧ t = s.accepted i) ∨
    t = s := by
  obtain ⟨e, rest, hp, -, ht⟩ | ⟨r, rest, i, hp, hr, hd, he⟩ | ⟨-, -, ht⟩ := step_cases h
  · exact .inl ⟨e, rest, hp, ht⟩
  · obtain ⟨hb, -⟩ | ⟨-, ha, ht⟩ := exec_cases he
    · exact absurd hp hb
    · exact .inr (.inl ⟨r, rest, i, hp, hr, hd, ha, ht⟩)
  · exact .inr (.inr ht)

/-! ### The lengths of the event lists -/

theorem cmdEv_length (op p : Byte) (m : Mask) :
    (cmdEv op p m).length = 4 + if isLong op then 1 else 0 := by
  cases h : isLong op <;> simp [cmdEv, h]

/-- The reset body has thirty events (R144). -/
@[simp] theorem resetBody_length (m : Mask) (fs dc em : Byte) : (resetBody m fs dc em).length = 30 := rfl

/-- A request has as many events as it makes commits and waits (R229). -/
theorem eventsOf_length (i : Instr) (s : State) : (eventsOf i s).length = commitCount i + waitCount i := by
  cases i with
  | select m => rfl
  | write b => rfl
  | command op p =>
    simp only [eventsOf, cmdEv_length, isLong, Bool.or_eq_true, decide_eq_true_eq]
    rfl
  | reset => simp [eventsOf, commitCount, waitCount]
  | init fs dc em => rfl

/-! ### The sequencing invariant -/

/-- `RSTATE` moves with each event of the reset body as the number of events left tells (R141). -/
theorem advance_bodyRState (n : Nat) : (bodyRState (n + 1)).advance n = bodyRState n := by
  obtain h | h | h | h : n < 10 ∨ 10 ≤ n ∧ n < 22 ∨ 22 ≤ n ∧ n < 24 ∨ 24 ≤ n := by omega
  all_goals grind [bodyRState, RState.advance, bodyLeft]

theorem sendingByte_complete {s : State} {e : Event} {rest : List Event} (hp : s.pending = e :: rest)
    (h : s.sendingByte) : (s.complete e rest).sendingByte := by
  have hrest : rest <:+ s.pending := hp ▸ List.suffix_cons e rest
  obtain ⟨b, hb⟩ | ⟨op, p, hc⟩ := h
  · exact .inl ⟨b, hrest.trans hb⟩
  · exact .inr ⟨op, p, hrest.trans hc⟩

theorem runningBody_complete {s : State} {e : Event} {rest : List Event} (hp : s.pending = e :: rest)
    (h : s.runningBody) : (s.complete e rest).runningBody := by
  have hrest : rest <:+ s.pending := hp ▸ List.suffix_cons e rest
  obtain hb | ⟨hm, hb⟩ := h
  · exact .inl (hrest.trans hb)
  · exact .inr ⟨hm, hrest.trans hb⟩

/-- Of a session only the first clause of the invariant speaks. -/
theorem sequenced_of_constructed {s : State} (hc : s.constructed = true)
    (h : (s.sendingByte ∧ s.rstate = .ready) ∨ (s.runningBody ∧ s.rstate = bodyRState s.pending.length)) :
    s.sequenced :=
  ⟨fun _ => h, fun hn => by simp [hc] at hn⟩

/-- An idle session in sequence is `Ready`: nothing of a body is left (R34 (d)). -/
theorem rstate_ready_of_sequenced {s : State} (h : s.sequenced) (hp : s.pending = []) (hc : s.constructed = true) :
    s.rstate = .ready := by
  obtain ⟨-, hr⟩ | ⟨-, hr⟩ := h.1 hc
  · exact hr
  · rw [hr, hp]
    rfl

/-- Performing an event keeps the invariant (R141, R211 Perform). -/
theorem sequenced_complete {s : State} {e : Event} {rest : List Event} (hp : s.pending = e :: rest)
    (h : s.sequenced) : (s.complete e rest).sequenced := by
  cases hc : s.constructed with
  | false =>
    obtain ⟨hidle, -⟩ := h.2 hc
    simp [hp] at hidle
  | true =>
    refine sequenced_of_constructed hc ?_
    obtain ⟨hs, hr⟩ | ⟨hb, hr⟩ := h.1 hc
    · exact .inl ⟨sendingByte_complete hp hs, by rw [State.complete_rstate, hr]; rfl⟩
    · refine .inr ⟨runningBody_complete hp hb, ?_⟩
      rw [State.complete_rstate, hr, hp, List.length_cons, advance_bodyRState, State.complete_pending]

/-- Taking a request leads to the invariant from a session that is `Ready`, and from no session at all (R34 (d), (e), R142, R143). -/
theorem sequenced_accepted {s : State} {i : Instr} (hready : s.constructed = true → s.rstate = .ready)
    (ha : admits i s) : (s.accepted i).sequenced := by
  refine sequenced_of_constructed (State.accepted_constructed ha) ?_
  cases i with
  | select m => exact .inl ⟨.inl ⟨0#8, List.nil_suffix⟩, hready ha⟩
  | write b => exact .inl ⟨.inl ⟨b, List.suffix_rfl⟩, hready ha⟩
  | command op p => exact .inl ⟨.inr ⟨op, p, List.suffix_rfl⟩, hready ha⟩
  | reset =>
    refine .inr ⟨?_, by simp [State.accepted, State.writeRegs, eventsOf, bodyRState]⟩
    cases hall : Config.resetAllSlots <;>
      simp [State.runningBody, State.accepted, State.writeRegs, eventsOf, hall]
  | init fs dc em => exact .inr ⟨.inr ⟨rfl, List.suffix_rfl⟩, rfl⟩

/-- Settles O41: a performed event takes the first event from what is in flight, and a request is taken in a `Ready` session or makes
the session. -/
theorem stepKeepsSequenced : Obligations.StepKeepsSequenced := by
  intro s t hs h
  obtain ⟨e, rest, hp, rfl⟩ | ⟨r, rest, i, hp, -, -, ha, rfl⟩ | rfl := step_next_cases h
  · exact sequenced_complete hp hs
  · exact sequenced_accepted (rstate_ready_of_sequenced hs hp) ha
  · exact hs

/-- Every run keeps the sequencing invariant. -/
theorem runs_keep_sequenced {n : Nat} {s t : State} (h : runs n s = .next t) (hs : s.sequenced) : t.sequenced :=
  runs_induct (P := fun s t => s.sequenced → t.sequenced) (fun _ h => h)
    (fun s t _ hst ih hs => ih (stepKeepsSequenced s t hs hst)) n s t h hs

/-- Settles O40: before INIT nothing is in flight. -/
theorem sequencedAtReset : Obligations.SequencedAtReset :=
  ⟨fun h => absurd h Bool.false_ne_true, fun _ => ⟨rfl, rfl⟩⟩

/-- Settles O42: what the invariant says of an idle state, read after the step. -/
theorem idleSessionIsReady : Obligations.IdleSessionIsReady := by
  intro s t hs h
  have ht : t.sequenced := stepKeepsSequenced s t hs h
  exact ⟨fun hc hp => rstate_ready_of_sequenced ht hp hc, ht.2⟩

/-! ### What a step writes -/

/-- Settles O24: a held request changes nothing, and an accepted one makes its own register writes. -/
theorem acceptanceFrame : Obligations.AcceptanceFrame := by
  intro i s t h
  obtain ⟨-, rfl⟩ | ⟨-, -, rfl⟩ := exec_cases h
  · simp
  · refine ⟨by simp, ?_⟩
    cases i with
    | init fs dc em => simp
    | _ => simp +contextual [State.accepted, State.writeRegs]

/-- A step of a session keeps the session and its configuration: the only request that writes them is not admitted (R34 (b), (c)). -/
theorem step_keeps_configuration {s t : State} (hc : s.constructed = true) (h : step s = .next t) :
    t.constructed = true ∧ t.fs = s.fs ∧ t.dc = s.dc ∧ t.em = s.em := by
  obtain ⟨e, rest, -, rfl⟩ | ⟨r, rest, i, -, -, -, ha, rfl⟩ | rfl := step_next_cases h
  · exact ⟨hc, rfl, rfl, rfl⟩
  · refine ⟨State.accepted_constructed ha, ?_⟩
    cases i with
    | init fs dc em => simp [admits, hc] at ha
    | _ => exact ⟨rfl, rfl, rfl⟩
  · exact ⟨hc, rfl, rfl, rfl⟩

/-- Settles O44, by induction on the run. -/
theorem configurationIsFixedByInit : Obligations.ConfigurationIsFixedByInit := by
  intro n s t hc h
  refine runs_induct (P := fun s t => s.constructed = true →
    t.constructed = true ∧ t.fs = s.fs ∧ t.dc = s.dc ∧ t.em = s.em) (fun s hc => ⟨hc, rfl, rfl, rfl⟩) ?_ n s t h hc
  intro s t u hst ih hc
  obtain ⟨hct, hfs, hdc, hem⟩ := step_keeps_configuration hc hst
  rw [← hfs, ← hdc, ← hem]
  exact ih hct

/-- Settles O45: performing an event writes no mask, and each request's register writes say which mask it writes. -/
theorem maskIsWrittenByThreeRequests : Obligations.MaskIsWrittenByThreeRequests := by
  intro s t h hne
  obtain ⟨e, rest, -, rfl⟩ | ⟨r, rest, i, hp, hr, hd, -, rfl⟩ | rfl := step_next_cases h
  · exact absurd rfl hne
  · refine ⟨r, i, hp, by simp [hr], hd, ?_⟩
    cases i with
    | select m => exact .inl rfl
    | write b => exact absurd rfl hne
    | command op p => exact absurd rfl hne
    | reset =>
      cases hall : Config.resetAllSlots with
      | false => simp [State.accepted, State.writeRegs, hall] at hne
      | true => simp [State.accepted, State.writeRegs, hall, defaultMask]
    | init fs dc em => exact .inr (.inl ⟨fs, dc, em, rfl, rfl⟩)
  · exact absurd rfl hne

/-- Settles O46: no commit has been performed. -/
theorem busFollowsTraceAtReset : Obligations.BusFollowsTraceAtReset := rfl

/-- Settles O47: an event performed changes the bus and grows the trace together; nothing else touches either. -/
theorem stepKeepsBusFollowsTrace : Obligations.StepKeepsBusFollowsTrace := by
  intro b0 s t hs h
  obtain ⟨e, rest, -, rfl⟩ | ⟨r, rest, i, -, -, -, -, rfl⟩ | rfl := step_next_cases h
  · have hbus : s.bus = busAfterAll b0 s.trace := hs.trans (busAfterAll_eq_lastCommit b0 s.trace).symm
    simp [State.busFollowsTrace, ← busAfterAll_eq_lastCommit, hbus]
  · simpa [State.busFollowsTrace] using hs
  · exact hs

/-! ### The ports and power-on -/

/-- Settles O30, by what `PENDING` begins with. -/
theorem portSignalsFollowPending : Obligations.PortSignalsFollowPending := by
  intro s
  unfold State.busOut State.waitReq State.reqReady State.busy
  rcases hp : s.pending with _ | ⟨_ | _, rest⟩ <;> simp

/-- Settles O36. -/
theorem powerOnValues : Obligations.PowerOnValues := ⟨rfl, rfl, rfl, rfl, rfl, rfl⟩

/-! ### What a step does not read -/

/-- The event a silent port leaves the run stuck at, as the step's fault (R211, 93 U11). -/
def silentFault (e : Event) : Fault :=
  match e with
  | .commit _ => .transportSilent
  | .waitExt => .waitSilent

/-- An event is completed if its port acknowledges, and otherwise the run is stuck (R211). -/
theorem perform_eq (e : Event) (rest : List Event) (s : State) :
    perform e rest s = if s.acks e then .next (s.complete e rest) else .fault (silentFault e) := by
  cases e <;> rfl

@[simp] theorem mapNext_next (f : State → State) (s : State) : mapNext f (.next s) = .next (f s) := rfl
@[simp] theorem mapNext_fault (f : State → State) (r : Fault) : mapNext f (.fault r) = .fault r := rfl
@[simp] theorem mapNext_refused (f : State → State) (r : Refusal) : mapNext f (.refused r) = .refused r := rfl

@[simp] theorem mapNext_id (o : Host.Outcome State Fault Refusal) : mapNext id o = o := by
  cases o <;> rfl

/-- Two states agree on all that decides what kind of step comes next (R202, R211). -/
structure State.SameCourse (s s' : State) : Prop where
  pending : s'.pending = s.pending
  requests : s'.requests = s.requests
  constructed : s'.constructed = s.constructed
  transportAcks : s'.transportAcks = s.transportAcks
  waitAcks : s'.waitAcks = s.waitAcks

theorem State.SameCourse.acks {s s' : State} (h : s.SameCourse s') (e : Event) : s'.acks e = s.acks e := by
  cases e with
  | commit b => exact h.transportAcks
  | waitExt => exact h.waitAcks

theorem State.SameCourse.admits_iff {s s' : State} (h : s.SameCourse s') (i : Instr) : admits i s' ↔ admits i s := by
  cases i <;> simp only [admits, h.constructed]

/-- States on the same course fault and refuse alike; so they step alike, up to `f` and `g`, if they do so where an idle block stays,
an event is completed or a request is accepted. -/
theorem mapNext_step_congr {s s' : State} {f g : State → State} (h : s.SameCourse s')
    (hidle : s.pending = [] → g s' = f s)
    (hcomplete : ∀ e rest, s.pending = e :: rest → g (s'.complete e rest) = f (s.complete e rest))
    (haccepted : ∀ i, s.pending = [] → admits i s → g (s'.accepted i) = f (s.accepted i)) :
    mapNext g (step s') = mapNext f (step s) := by
  rcases hp : s.pending with _ | ⟨e, rest⟩
  · have hp' := h.pending.trans hp
    rcases hr : s.requests with _ | ⟨r, rest⟩
    · rw [step_idle hp hr, step_idle hp' (h.requests.trans hr), mapNext_next, mapNext_next, hidle hp]
    · have hr' := h.requests.trans hr
      cases hd : decode r with
      | reservedOp op =>
        rw [step_presented_reserved hp hr hd, step_presented_reserved hp' hr' hd, mapNext_refused, mapNext_refused]
      | instr i =>
        rw [step_presented_instr hp hr hd, step_presented_instr hp' hr' hd]
        by_cases ha : admits i s
        · rw [exec_of_admits hp ha, exec_of_admits hp' ((h.admits_iff i).2 ha), mapNext_next, mapNext_next,
            haccepted i hp ha]
        · rw [exec_of_not_admits hp ha, exec_of_not_admits hp' (mt (h.admits_iff i).1 ha), mapNext_refused,
            mapNext_refused]
  · rw [step_performing hp, step_performing (h.pending.trans hp), perform_eq, perform_eq, h.acks e]
    cases s.acks e with
    | false => rfl
    | true => simp [hcomplete e rest hp]

/-- Settles O37: before INIT the one request accepted is INIT, which writes all four registers and reads none of them. -/
theorem unspecifiedRegistersAreNotObservable : Obligations.UnspecifiedRegistersAreNotObservable := by
  intro s m fs dc em hc hp
  rw [← mapNext_id (step (s.withUnspecified m fs dc em))]
  refine mapNext_step_congr ⟨rfl, rfl, rfl, rfl, rfl⟩ ?_ ?_ ?_
  · simp [hc]
  · simp [hp]
  · intro i _ ha
    cases i with
    | init fs dc em => rfl
    | _ => simp [admits, hc] at ha

/-- Settles O38: a completed event and an accepted request read no `RSTATE`, but to write it. -/
theorem rStateIsNotObservable : Obligations.RStateIsNotObservable := by
  intro s r
  refine mapNext_step_congr ⟨rfl, rfl, rfl, rfl, rfl⟩ (fun _ => rfl) (fun _ _ _ => rfl) ?_
  intro i _ _
  cases i <;> rfl

/-- Settles O39: no event completed and no request accepted reads `BUS`, and a commit replaces all of it. -/
theorem busIsNeverRead : Obligations.BusIsNeverRead := by
  intro s b
  constructor
  · refine mapNext_step_congr ⟨rfl, rfl, rfl, rfl, rfl⟩ (fun _ => rfl) (fun _ _ _ => rfl) ?_
    intro i _ _
    cases i <;> rfl
  · intro c rest hp
    rw [← mapNext_id (step (s.withBus b)), ← mapNext_id (step s)]
    refine mapNext_step_congr ⟨rfl, rfl, rfl, rfl, rfl⟩ ?_ ?_ ?_
    · simp [hp]
    · intro e rest' he
      obtain ⟨rfl, rfl⟩ := List.cons.inj (hp.symm.trans he)
      rfl
    · simp [hp]

/-! ### Runs of a whole request -/

/-- What performing events leaves as it was: every register but `RSTATE` and `PENDING`, and the inputs of the ports (R211 Perform). -/
structure State.PerformFrame (s t : State) : Prop where
  constructed : t.constructed = s.constructed
  mask : t.mask = s.mask
  fs : t.fs = s.fs
  dc : t.dc = s.dc
  em : t.em = s.em
  requests : t.requests = s.requests
  transportAcks : t.transportAcks = s.transportAcks
  waitAcks : t.waitAcks = s.waitAcks

theorem State.PerformFrame.refl (s : State) : s.PerformFrame s := ⟨rfl, rfl, rfl, rfl, rfl, rfl, rfl, rfl⟩

theorem State.PerformFrame.of_complete {s t : State} {e : Event} {rest : List Event}
    (h : (s.complete e rest).PerformFrame t) : s.PerformFrame t :=
  ⟨h.constructed, h.mask, h.fs, h.dc, h.em, h.requests, h.transportAcks, h.waitAcks⟩

/-- In a fair state every port acknowledges. -/
theorem State.fair.acks {s : State} (h : s.fair) (e : Event) : s.acks e = true := by
  cases e with
  | commit b => exact h.1
  | waitExt => exact h.2

/-- From a fair state the pending events are performed one a step, in their order (R47, R211). -/
theorem runs_performs_pending (n : Nat) (s : State) (hf : s.fair) (hn : n ≤ s.pending.length) :
    ∃ t, runs n s = .next t ∧ t.trace = s.trace ++ s.pending.take n ∧ t.pending = s.pending.drop n ∧
      t.bus = busAfterAll s.bus (s.pending.take n) ∧ s.PerformFrame t := by
  induction n generalizing s with
  | zero => exact ⟨s, by simp [State.PerformFrame.refl]⟩
  | succ n ih =>
    rcases hp : s.pending with _ | ⟨e, rest⟩
    · simp [hp] at hn
    · have hstep : step s = .next (s.complete e rest) := by rw [step_performing hp, perform_next (hf.acks e)]
      obtain ⟨t, hrun, htrace, hpend, hbus, hframe⟩ := ih (s.complete e rest) hf (by simpa [hp] using hn)
      exact ⟨t, by rw [runs_succ_of_next n hstep, hrun], by simpa using htrace, by simpa using hpend,
        by simpa using hbus, hframe.of_complete⟩

/-- A request admitted by an idle fair block is taken in one step and performed in one step for each of its events (R211, R229). -/
theorem runs_request {r : Request} {rest : List Request} {i : Instr} {s : State} (hf : s.fair) (hp : s.pending = [])
    (hr : s.requests = r :: rest) (hd : decode r = .instr i) (ha : admits i s)
    (hready : s.constructed = true → s.rstate = .ready) :
    ∃ t, runs ((eventsOf i s).length + 1) s = .next t ∧ t.pending = [] ∧ t.rstate = .ready ∧
      t.trace = s.trace ++ eventsOf i s ∧ t.bus = busAfterAll s.bus (eventsOf i s) ∧
      (s.accepted i).PerformFrame t := by
  have hstep : step s = .next (s.accepted i) := by rw [step_presented_instr hp hr hd, exec_of_admits hp ha]
  have hfair : (s.accepted i).fair := by simpa [State.fair] using hf
  obtain ⟨t, hrun, htrace, hpend, hbus, hframe⟩ := runs_performs_pending (eventsOf i s).length (s.accepted i) hfair le_rfl
  rw [State.accepted_pending, List.drop_length] at hpend
  rw [State.accepted_pending, List.take_length] at htrace hbus
  have hseq : t.sequenced := runs_keep_sequenced hrun (sequenced_accepted hready ha)
  have hc : t.constructed = true := hframe.constructed.trans (State.accepted_constructed ha)
  exact ⟨t, by rw [runs_succ_of_next _ hstep, hrun], hpend, rstate_ready_of_sequenced hseq hpend hc,
    by simpa using htrace, by simpa using hbus, hframe⟩

/-- Settles O54: the run of a request, with the number of its events and the session it finds or makes. -/
theorem admittedRequestRunsToCompletion : Obligations.AdmittedRequestRunsToCompletion := by
  intro r rest i s hs hf hp hr hd ha
  obtain ⟨t, hrun, hpend, hready, htrace, hbus, hframe⟩ :=
    runs_request hf hp hr hd ha (rstate_ready_of_sequenced hs hp)
  have hsteps : 1 + commitCount i + waitCount i = (eventsOf i s).length + 1 := by rw [eventsOf_length]; omega
  exact ⟨t, by rw [hsteps, hrun], hpend, hframe.constructed.trans (State.accepted_constructed ha), hready,
    by rw [hframe.requests, State.accepted_requests, hr, List.tail_cons], htrace, hbus⟩

theorem decode_encode_init (fs dc em : Byte) : decode (encode (.init fs dc em)) = .instr (.init fs dc em) := by
  simp [decode, encode, opInit, opSelect, opWrite, opCommand, opReset]

/-- Whatever the bus held, the reset body leaves the low nibble of home on it, the enables low (R140). -/
theorem busAfterAll_resetBody (bus : Byte) (m : Mask) (fs dc em : Byte) :
    busAfterAll bus (resetBody m fs dc em) = 0x02#8 := rfl

/-- Settles O55: the run of INIT, with the registers its acceptance writes. -/
theorem stateAfterInit : Obligations.StateAfterInit := by
  intro s rest fs dc em hc hp hf hr
  obtain ⟨t, hrun, hpend, hready, htrace, hbus, hframe⟩ :=
    runs_request hf hp hr (decode_encode_init fs dc em) hc (fun h => by simp [hc] at h)
  exact ⟨t, hrun, hframe.constructed, hframe.fs, hframe.dc, hframe.em, hframe.mask, hready, hpend,
    by rw [hframe.requests, State.accepted_requests, hr, List.tail_cons], htrace,
    hbus.trans (busAfterAll_resetBody s.bus allMask fs dc em)⟩

end Sys2Proof.Machine

/-! The proofs of the statements about events: that requests emit whole nibble transfers and waits, and how the events are performed. -/

namespace Sys2Proof.Machine

/-! ### Whole nibble transfers -/

/-- Whole nibble transfers and waits leave nothing open for what comes after them. -/
theorem wholeNibbles_append {es : List Event} (fs : List Event) (h : wholeNibbles es = true) :
    wholeNibbles (es ++ fs) = wholeNibbles fs := by
  induction es using wholeNibbles.induct with
  | case1 => rfl
  | case2 es ih => exact ih h
  | case3 b => cases h
  | case4 b es => cases h
  | case5 b1 b2 es ih =>
    rw [wholeNibbles, Bool.and_eq_true] at h
    obtain ⟨hphase, hes⟩ := h
    rw [List.cons_append, List.cons_append, wholeNibbles, hphase, Bool.true_and, ih hes]

/-- A nibble transfer is a phase 1 and its phase 2 (R100). -/
@[simp] theorem wholeNibbles_nib (v : Byte) (rs : Rs) (m : Mask) : wholeNibbles (nib v rs m) = true := by
  simp [nib, wholeNibbles]

@[simp] theorem wholeNibbles_byteEv (b : Byte) (rs : Rs) (m : Mask) : wholeNibbles (byteEv b rs m) = true := by
  simp [byteEv, wholeNibbles_append]

@[simp] theorem wholeNibbles_cmdEv (op p : Byte) (m : Mask) : wholeNibbles (cmdEv op p m) = true := by
  cases h : isLong op <;> simp [cmdEv, h, wholeNibbles_append, wholeNibbles]

@[simp] theorem wholeNibbles_resetBody (m : Mask) (fs dc em : Byte) : wholeNibbles (resetBody m fs dc em) = true := by
  simp [resetBody, wholeNibbles_append]

/-- Settles O15, by the shape of each request's events. -/
theorem requestsEmitWholeNibbles : Obligations.RequestsEmitWholeNibbles := by
  intro i s
  cases i with
  | select m => rfl
  | write b => exact wholeNibbles_byteEv b rsData s.mask
  | command op p => exact wholeNibbles_cmdEv op p s.mask
  | reset => exact wholeNibbles_resetBody _ s.fs s.dc s.em
  | init fs dc em => exact wholeNibbles_resetBody allMask fs dc em

/-! ### The events performed -/

/-- Settles O33: a run of a fair state that is no longer than what is pending performs just that much of it. -/
theorem eventsArePerformedInOrder : Obligations.EventsArePerformedInOrder := by
  intro s n hf hn
  obtain ⟨t, hrun, htrace, hpend, hbus, hframe⟩ := runs_performs_pending n s hf hn
  exact ⟨t, hrun, htrace, hpend, hframe.requests, hbus⟩

/-- A step takes back no event performed: it appends one or none (R211). -/
theorem step_trace_prefix {s t : State} (h : step s = .next t) : s.trace <+: t.trace := by
  obtain ⟨e, rest, -, rfl⟩ | ⟨r, rest, i, -, -, -, -, rfl⟩ | rfl := step_next_cases h
  · exact List.prefix_append s.trace [e]
  · rw [State.accepted_trace]
  · exact List.prefix_rfl

/-- Settles O58, by induction on the run. -/
theorem traceOnlyGrows : Obligations.TraceOnlyGrows :=
  runs_induct (fun _ => List.prefix_rfl) (fun _ _ _ hst ih => (step_trace_prefix hst).trans ih)

/-- The wait port takes at least `T_EXT` over a wait (R206). -/
theorem tExt_le_duration_waitExt (n : Nat) : Config.tExt ≤ Event.waitExt.duration n :=
  Nat.le_add_right Config.tExt (Config.waitSlack n)

/-- Settles O34: the step performs the wait if its port acknowledges, and is stuck at it otherwise. -/
theorem waitTakesAtLeastTExt : Obligations.WaitTakesAtLeastTExt := by
  intro s rest hp
  have hstep : step s = if s.acks .waitExt then .next (s.complete .waitExt rest) else .fault (silentFault .waitExt) := by
    rw [step_performing hp, perform_eq]
  constructor
  · intro (hack : s.acks .waitExt = true)
    exact ⟨s.complete .waitExt rest, by rw [hstep, if_pos hack],
      Nat.add_le_add_left (tExt_le_duration_waitExt s.trace.length) s.elapsed, rfl, rfl⟩
  · intro (hack : s.acks .waitExt = false)
    rw [hstep, hack]
    rfl

end Sys2Proof.Machine

/-! The proofs of the statements about encodings: the request word, the lines of the assembler and the bus bytes of a nibble; and that
an admitted request is accepted. -/

namespace Sys2Proof.Machine

/-! ### The decoder on packed words -/

/-- SELECT's mask is the remainder of `A` by 8: the bits `A[7:3]` are dropped (R64). -/
@[simp] theorem toNat_maskOfA (a : Byte) : (maskOfA a).toNat = a.toNat % 8 := by
  simp [maskOfA]

/-- SELECT's mask reads back from the field it is written to (R74). -/
@[simp] theorem maskOfA_setWidth (m : Mask) : maskOfA (m.setWidth 8) = m := by
  apply BitVec.eq_of_toNat_eq
  rw [toNat_maskOfA, BitVec.toNat_setWidth]
  omega

section
variable (a b c : Byte)

/-! The request of each used code, with the fields it reads (R61, R64). -/

theorem decode_pack_select : decode (pack opSelect a b c) = .instr (.select (maskOfA a)) := by
  simp [decode]

theorem decode_pack_write : decode (pack opWrite a b c) = .instr (.write a) := by
  simp [decode, opSelect, opWrite]

theorem decode_pack_command : decode (pack opCommand a b c) = .instr (.command a b) := by
  simp [decode, opSelect, opWrite, opCommand]

theorem decode_pack_reset : decode (pack opReset a b c) = .instr .reset := by
  simp [decode, opSelect, opWrite, opCommand, opReset]

theorem decode_pack_init : decode (pack opInit a b c) = .instr (.init a b c) := by
  simp [decode, opSelect, opWrite, opCommand, opReset, opInit]

end

/-- A word with one of the three codes of no request is Reserved (R63, R66). -/
theorem decode_of_reserved {r : Request} (h : r.op = 0#3 ∨ r.op = 6#3 ∨ r.op = 7#3) :
    decode r = .reservedOp r.op := by
  obtain h | h | h := h <;> simp [decode, h, opSelect, opWrite, opCommand, opReset, opInit]

/-- A 3-bit code is one of the three reserved ones or one of the five of R61. -/
theorem op_reserved_or_used (op : BitVec 3) :
    (op = 0#3 ∨ op = 6#3 ∨ op = 7#3) ∨
      op = opSelect ∨ op = opWrite ∨ op = opCommand ∨ op = opReset ∨ op = opInit := by
  revert op
  decide

/-- A word with any other code is a request (R66). -/
theorem decode_of_not_reserved {r : Request} (h : ¬ (r.op = 0#3 ∨ r.op = 6#3 ∨ r.op = 7#3)) :
    ∃ i, decode r = .instr i := by
  rw [← pack_fields r]
  obtain hop | hop | hop | hop | hop := (op_reserved_or_used r.op).resolve_left h <;> rw [hop]
  · exact ⟨_, decode_pack_select ..⟩
  · exact ⟨_, decode_pack_write ..⟩
  · exact ⟨_, decode_pack_command ..⟩
  · exact ⟨_, decode_pack_reset ..⟩
  · exact ⟨_, decode_pack_init ..⟩

/-! ### Decoder and encoder -/

/-- The decoder undoes the encoder (R61, R64, R74). -/
@[simp] theorem decode_encode (i : Instr) : decode (encode i) = .instr i := by
  cases i with
  | select m => rw [encode, decode_pack_select, maskOfA_setWidth]
  | write b => exact decode_pack_write b 0#8 0#8
  | command op p => exact decode_pack_command op p 0#8
  | reset => exact decode_pack_reset 0#8 0#8 0#8
  | init fs dc em => exact decode_pack_init fs dc em

/-- Every word of the encoder has 0 in the fields its request ignores (R62, R74). -/
theorem canonical_encode (i : Instr) : (encode i).canonical = true := by
  cases i with
  | select m => exact Laws.EncodeCanonical.select m
  | write b => exact Laws.EncodeCanonical.write b
  | command op p => exact Laws.EncodeCanonical.command op p
  | reset => exact Laws.EncodeCanonical.reset
  | init fs dc em => exact Laws.EncodeCanonical.init fs dc em

/-- Settles O2. -/
theorem decodeOfEncodeIsTheRequest : Obligations.DecodeOfEncodeIsTheRequest :=
  fun i _ => ⟨decode_encode i, canonical_encode i⟩

/-- A byte whose bits 7:3 are 0 holds only SELECT's mask. -/
theorem setWidth_maskOfA {a : Byte} (h : a.extractLsb' 3 5 = 0#5) : (maskOfA a).setWidth 8 = a := by
  have hhigh : a.toNat / 8 % 32 = 0 := by simpa [Nat.shiftRight_eq_div_pow] using congrArg BitVec.toNat h
  apply BitVec.eq_of_toNat_eq
  rw [BitVec.toNat_setWidth, toNat_maskOfA]
  omega

/-- The canonical words are words of the encoder (R62, R74). -/
theorem exists_encode_of_canonical {r : Request} (h : r.canonical = true) : ∃ i, encode i = r := by
  rw [← pack_fields r]
  unfold Request.canonical at h
  split at h
  next hop =>
    simp only [Bool.and_eq_true, decide_eq_true_eq] at h
    obtain ⟨⟨ha, hb⟩, hc⟩ := h
    exact ⟨.select (maskOfA r.fieldA), by rw [encode, setWidth_maskOfA ha, hop, hb, hc]⟩
  split at h
  next hop =>
    simp only [Bool.and_eq_true, decide_eq_true_eq] at h
    obtain ⟨hb, hc⟩ := h
    exact ⟨.write r.fieldA, by rw [encode, hop, hb, hc]⟩
  split at h
  next hop => exact ⟨.command r.fieldA r.fieldB, by rw [encode, hop, of_decide_eq_true h]⟩
  split at h
  next hop =>
    simp only [Bool.and_eq_true, decide_eq_true_eq] at h
    obtain ⟨⟨ha, hb⟩, hc⟩ := h
    exact ⟨.reset, by rw [encode, hop, ha, hb, hc]⟩
  next => exact ⟨.init r.fieldA r.fieldB r.fieldC, by rw [encode, of_decide_eq_true h]⟩

/-- Settles O3: a canonical word is the word of some request, and that is the request it decodes to. -/
theorem encodeOfDecodeIsTheWord : Obligations.EncodeOfDecodeIsTheWord := by
  intro r i hcan hd
  obtain ⟨j, rfl⟩ := exists_encode_of_canonical hcan
  rw [decode_encode] at hd
  rw [Decoded.instr.inj hd]

/-- Settles O4, one code after another. -/
theorem decodeReadsTheFields : Obligations.DecodeReadsTheFields := by
  refine ⟨pack_fields, fun a b c => ⟨?_, decode_pack_write a b c, decode_pack_command a b c, decode_pack_reset a b c,
    decode_pack_init a b c, ?_, ?_, ?_⟩⟩
  · have hmask : maskOfA a = BitVec.ofNat 3 (a.toNat % 8) := by
      rw [← toNat_maskOfA, BitVec.ofNat_toNat, BitVec.setWidth_eq]
    rw [← hmask]
    exact decode_pack_select a b c
  all_goals rw [decode_of_reserved (by simp), op_pack]

/-- Settles O5: a word is Reserved for the three codes and a request for the others, and never both. -/
theorem reservedExactlyForThreeCodes : Obligations.ReservedExactlyForThreeCodes := by
  intro r
  by_cases h : r.op = 0#3 ∨ r.op = 6#3 ∨ r.op = 7#3
  · simp [decode_of_reserved h, h]
  · obtain ⟨i, hd⟩ := decode_of_not_reserved h
    simp [hd, h]

/-- Settles O7. -/
theorem writtenWordsDecode : Obligations.WrittenWordsDecode := by
  unfold Obligations.WrittenWordsDecode
  decide

/-! ### The word as a number -/

/-- A word is the number its fields make (R60). -/
theorem toNat_eq_fields (r : Request) :
    r.toNat = r.op.toNat * 2 ^ 24 + r.fieldA.toNat * 2 ^ 16 + r.fieldB.toNat * 2 ^ 8 + r.fieldC.toNat := by
  simp only [Request.op, Request.fieldA, Request.fieldB, Request.fieldC, BitVec.extractLsb'_toNat,
    Nat.shiftRight_eq_div_pow]
  omega

theorem toNat_pack (op : BitVec 3) (a b c : Byte) :
    (pack op a b c).toNat = op.toNat * 2 ^ 24 + a.toNat * 2 ^ 16 + b.toNat * 2 ^ 8 + c.toNat := by
  rw [toNat_eq_fields, op_pack, fieldA_pack, fieldB_pack, fieldC_pack]

/-- Settles O1. -/
theorem requestWordHoldsItsFields : Obligations.RequestWordHoldsItsFields := fun op a b c =>
  ⟨toNat_pack op a b c, op_pack op a b c, fieldA_pack op a b c, fieldB_pack op a b c, fieldC_pack op a b c⟩

/-- The word of four fields, as the number written for it (R60). -/
theorem pack_eq_ofNat (op : BitVec 3) (a b c : Byte) :
    pack op a b c = BitVec.ofNat 27 (op.toNat * 2 ^ 24 + a.toNat * 2 ^ 16 + b.toNat * 2 ^ 8 + c.toNat) := by
  rw [← toNat_pack, BitVec.ofNat_toNat, BitVec.setWidth_eq]

/-! ### The assembler -/

/-- A line in range is assembled to the words of its requests, and any other is refused (R74). -/
theorem assemble_eq (l : Line) :
    Line.assemble l = if l.wellFormed = true then some ((Line.requests l).map encode) else none := by
  cases h : l.wellFormed <;> simp [Line.assemble, Line.expand, h]

/-- A line of one request, with the word it has for operands in range. -/
theorem assemble_single {l : Line} {i : Instr} {w : Request} {P : Prop} [Decidable P]
    (hrequests : Line.requests l = [i]) (hrange : l.wellFormed = true ↔ P) (hword : P → encode i = w) :
    Line.assemble l = if P then some [w] else none := by
  rw [assemble_eq, hrequests]
  by_cases hP : P
  · rw [if_pos (hrange.2 hP), if_pos hP, List.map_singleton, hword hP]
  · rw [if_neg (mt hrange.1 hP), if_neg hP]

/-- Settles O8: the encoder's word for each request, as a number; an operand in range is what its field holds. -/
theorem assemblerWritesTheWord : Obligations.AssemblerWritesTheWord := by
  intro x y z
  refine ⟨assemble_single rfl (by simp [Line.wellFormed]) fun hx => ?_,
    assemble_single rfl (by simp [Line.wellFormed]) fun hx => ?_,
    assemble_single rfl (by simp [Line.wellFormed]) fun ⟨hx, hy⟩ => ?_, rfl,
    assemble_single rfl (by simp [Line.wellFormed, and_assoc]) fun ⟨hx, hy, hz⟩ => ?_⟩
  · simp (disch := omega) [encode, pack_eq_ofNat, opSelect, Nat.mod_eq_of_lt]
  · simp (disch := omega) [encode, pack_eq_ofNat, opWrite, Nat.mod_eq_of_lt]
  · simp (disch := omega) [encode, pack_eq_ofNat, opCommand, Nat.mod_eq_of_lt]
  · simp (disch := omega) [encode, pack_eq_ofNat, opInit, Nat.mod_eq_of_lt]

/-- The words of a line in range decode to its requests (R74, R75). -/
theorem decode_assemble (l : Line) :
    (Line.assemble l).map (fun ws => ws.map decode) =
      if l.wellFormed = true then some ((Line.requests l).map .instr) else none := by
  rw [assemble_eq]
  split <;> simp [Function.comp_def]

/-- Settles O9: the requests of each line, and the range of its operand. -/
theorem pseudoInstructionsExpand : Obligations.PseudoInstructionsExpand := by
  unfold Obligations.PseudoInstructionsExpand
  intro decoded
  have hdecoded (l : Line) :
      decoded l = if l.wellFormed = true then some ((Line.requests l).map .instr) else none := decode_assemble l
  refine ⟨?_, hdecoded .clear, hdecoded .home, ?_, hdecoded .selectAll, hdecoded .selectNone⟩
  · intro codes hcodes
    have hrange : (Line.writeText codes).wellFormed = true := by simpa [Line.wellFormed] using hcodes
    rw [hdecoded, if_pos hrange, Line.requests, List.map_map]
    rfl
  · intro p
    have hp : p.toNat < 256 := p.isLt
    refine ⟨?_, ?_, ?_, ?_, ?_, ?_⟩ <;> rw [hdecoded]
    · simp [Line.wellFormed, Line.requests, opEntryMode, hp]
    · simp [Line.wellFormed, Line.requests, opDisplayControl, hp]
    · simp [Line.wellFormed, Line.requests, opShift, hp]
    · simp [Line.wellFormed, Line.requests, opFunctionSet, hp]
    · simp [Line.wellFormed, Line.requests, opSetCgram, Nat.lt_succ_iff]
    · simp [Line.wellFormed, Line.requests, opSetDdram, Nat.lt_succ_iff]

/-! ### Fields a request ignores -/

/-- An idle block that takes a request from the port leaves the same state whatever word it was presented as: the word is consumed
(R207). -/
theorem exec_consumes_word {s : State} (i : Instr) (r r' : Request) (rest : List Request) (hp : s.pending = []) :
    exec i { s with requests := r :: rest } = exec i { s with requests := r' :: rest } := by
  by_cases hc : s.constructed = !isInitRequest i
  · have haccepts : ∀ w, exec i { s with requests := w :: rest } =
        .next (State.accepted { s with requests := w :: rest } i) :=
      fun w => exec_of_admits hp ((admits_iff i _).2 hc)
    rw [haccepts, haccepts]
    cases i <;> rfl
  · have hrefuses : ∀ w, exec i { s with requests := w :: rest } = .refused (refusalOf i) :=
      fun w => exec_of_not_admits hp (mt (admits_iff i _).1 hc)
    rw [hrefuses, hrefuses]

/-- Two words that decode to one request, presented to an idle block with the same words behind them, lead to one outcome (R65). -/
theorem step_eq_of_decode_eq {s : State} {r r' : Request} {i : Instr} (rest : List Request) (hp : s.pending = [])
    (hd : decode r = .instr i) (hd' : decode r' = .instr i) :
    step { s with requests := r :: rest } = step { s with requests := r' :: rest } := by
  have hstep (w : Request) (hw : decode w = .instr i) :
      step { s with requests := w :: rest } = exec i { s with requests := w :: rest } :=
    step_presented_instr hp rfl hw
  rw [hstep r hd, hstep r' hd', exec_consumes_word i r r' rest hp]

/-- Settles O6: words that differ in ignored fields decode to the same request. -/
theorem ignoredFieldsHaveNoEffect : Obligations.IgnoredFieldsHaveNoEffect := by
  intro s rest a b c a' b' c' hp
  refine ⟨?_, ?_, ?_, ?_⟩
  · intro hmask
    have hd := decode_pack_select a b c
    rw [show maskOfA a = maskOfA a' from hmask] at hd
    exact step_eq_of_decode_eq rest hp hd (decode_pack_select a' b' c')
  · rintro rfl
    exact step_eq_of_decode_eq rest hp (decode_pack_write a b c) (decode_pack_write a b' c')
  · rintro rfl rfl
    exact step_eq_of_decode_eq rest hp (decode_pack_command a b c) (decode_pack_command a b c')
  · exact step_eq_of_decode_eq rest hp (decode_pack_reset a b c) (decode_pack_reset a' b' c')

/-! ### The bus bytes of a nibble transfer -/

/-- A bus byte is the number its fields make (R67). -/
theorem toNat_eq_busFields (b : Byte) :
    b.toNat = (enableField b).toNat * 32 + (rsField b).toNat * 16 + (dataField b).toNat := by
  simp only [enableField, rsField, dataField, BitVec.extractLsb'_toNat, Nat.shiftRight_eq_div_pow]
  omega

theorem toNat_busByte (en : Mask) (rs : Rs) (v : Byte) :
    (busByte en rs v).toNat = en.toNat * 32 + rs.toNat * 16 + v.toNat % 16 := by
  rw [toNat_eq_busFields, enableField_busByte, rsField_busByte, dataField_busByte]
  simp

/-- Settles O11: both commits are bus bytes, the second without enables. -/
theorem nibbleTransferBusLayout : Obligations.NibbleTransferBusLayout := by
  intro v rs m
  refine ⟨busByte m rs v, busByte noMask rs v, rfl, toNat_busByte m rs v, ?_, ?_, rsField_busByte m rs v,
    rsField_busByte noMask rs v⟩
  · simp [toNat_busByte, noMask]
  · intro k
    simp [noMask]

/-! ### Acceptance -/

/-- A busy block holds a request (R202 row 1). -/
theorem exec_of_busy {s : State} (i : Instr) (h : s.pending ≠ []) : exec i s = .next s := by
  rw [exec_eq, accept_held h]

/-- Settles O25: a request is held, accepted or refused. -/
theorem admittedRequestsAreAccepted : Obligations.AdmittedRequestsAreAccepted := by
  intro i s
  constructor
  · intro f
    by_cases hp : s.pending = []
    · by_cases ha : admits i s
      · simp [exec_of_admits hp ha]
      · simp [exec_of_not_admits hp ha]
    · simp [exec_of_busy i hp]
  · intro hp ha
    exact ⟨s.accepted i, exec_of_admits hp ha, State.accepted_pending s i, State.accepted_requests s i⟩

end Sys2Proof.Machine

/-! The proofs of the statements about nibbles and bytes on the bus: the enable-edge invariant, the bus bytes of a transfer, and what
each slot latches. -/

namespace Sys2Proof.Machine

/-! ### The enable-edge invariant -/

/-- A pending phase 1 has its phase 2 next, and whole nibbles behind it (R100, R101). -/
theorem wholeNibbles_cons_commit {b : Byte} {es : List Event} (h : wholeNibbles (.commit b :: es) = true) :
    ∃ rest, es = .commit (b &&& 0x1F#8) :: rest ∧ wholeNibbles rest = true := by
  rcases es with _ | ⟨_ | _, rest⟩
  · simp [wholeNibbles] at h
  · simpa [wholeNibbles] using h
  · simp [wholeNibbles] at h

/-- With every enable low no slot's enable line is high (R69). -/
theorem enableLine_of_enableField {bus : Byte} (h : enableField bus = noMask) (k : Slot) : enableLine k bus = false := by
  simp [enableLine_eq, h, noMask]

/-- Every slot is in the mask of all slots (R6). -/
theorem getLsbD_allMask (k : Slot) : allMask.getLsbD k.val = true := by
  revert k
  decide

/-- An idle session rests with every enable low. -/
theorem enableField_of_idle {s : State} (h : s.edgesIntended) (hc : s.constructed = true) (hp : s.pending = []) :
    enableField s.bus = noMask := by
  obtain ⟨-, hlow⟩ | ⟨rest, hphase, -⟩ | ⟨rest, hbody, -⟩ := h hc
  · exact hlow
  · simp [hp] at hphase
  · simp [hp, nib] at hbody

/-- Performing an event keeps the invariant: a phase 1 leaves its phase 2 pending, and a phase 2 leaves every enable low. -/
theorem edgesIntended_complete {s : State} {e : Event} {rest : List Event} (hp : s.pending = e :: rest)
    (h : s.edgesIntended) : (s.complete e rest).edgesIntended := by
  intro hc
  obtain ⟨hwhole, hlow⟩ | ⟨es, hphase, hwhole⟩ | ⟨es, hbody, hwhole⟩ := h hc
  · rw [hp] at hwhole
    cases e with
    | commit b => exact .inr (.inl (wholeNibbles_cons_commit hwhole))
    | waitExt => exact .inl ⟨hwhole, hlow⟩
  · obtain ⟨rfl, rfl⟩ := List.cons.inj (hp.symm.trans hphase)
    exact .inl ⟨hwhole, enableField_and_payload s.bus⟩
  · obtain ⟨rfl, rfl⟩ := List.cons.inj (hp.symm.trans hbody)
    exact .inr (.inl ⟨es, by simp, hwhole⟩)

/-- The reset body begins with a nibble transfer to its slots (R140). -/
theorem resetBody_eq_nib_append (m : Mask) (fs dc em : Byte) :
    ∃ rest, resetBody m fs dc em = nib nib8Bit rsCmd m ++ rest ∧ wholeNibbles rest = true := by
  refine ⟨(resetBody m fs dc em).drop 2, rfl, ?_⟩
  rw [← wholeNibbles_append _ (wholeNibbles_nib nib8Bit rsCmd m)]
  exact wholeNibbles_resetBody m fs dc em

/-- Taking a request leads to the invariant: INIT has its whole body to come, and every other request finds the bus at rest. -/
theorem edgesIntended_accepted {s : State} {i : Instr} (hrest : s.constructed = true → enableField s.bus = noMask)
    (ha : admits i s) : (s.accepted i).edgesIntended := by
  intro _
  have hwhole : wholeNibbles (s.accepted i).pending = true := requestsEmitWholeNibbles i s
  cases i with
  | init fs dc em => exact .inr (.inr (resetBody_eq_nib_append allMask fs dc em))
  | _ => exact .inl ⟨hwhole, hrest ha⟩

/-- Settles O49: a performed event and an accepted request each keep the invariant. -/
theorem stepKeepsEdgesIntended : Obligations.StepKeepsEdgesIntended := by
  intro s t hs h
  obtain ⟨e, rest, hp, rfl⟩ | ⟨r, rest, i, hp, -, -, ha, rfl⟩ | rfl := step_next_cases h
  · exact edgesIntended_complete hp hs
  · exact edgesIntended_accepted (fun hc => enableField_of_idle hs hc hp) ha
  · exact hs

/-- Settles O48: at power-on there is no session. -/
theorem edgesIntendedAtReset : Obligations.EdgesIntendedAtReset := fun h => absurd h Bool.false_ne_true

/-- The one commit of a session that takes an enable line from high to low is the phase 2 of the byte on the bus. -/
theorem busAfter_of_falling {s : State} {k : Slot} {e : Event} {rest : List Event} (h : s.edgesIntended)
    (hc : s.constructed = true) (hp : s.pending = e :: rest) (hhigh : enableLine k s.bus = true)
    (hlow : enableLine k (e.busAfter s.bus) = false) : e.busAfter s.bus = s.bus &&& 0x1F#8 := by
  obtain ⟨-, hrest⟩ | ⟨es, hphase, -⟩ | ⟨es, hbody, -⟩ := h hc
  · simp [enableLine_of_enableField hrest k] at hhigh
  · obtain ⟨rfl, -⟩ := List.cons.inj (hp.symm.trans hphase)
    rfl
  · obtain ⟨rfl, -⟩ := List.cons.inj (hp.symm.trans hbody)
    rw [Event.busAfter_commit, enableLine_busByte, getLsbD_allMask] at hlow
    cases hlow

/-- Settles O50: only a performed event moves the bus, and it is the phase 2. -/
theorem fallingEdgeIsPhaseTwo : Obligations.FallingEdgeIsPhaseTwo := by
  intro s t k hs hc h hhigh hlow
  obtain ⟨e, rest, hp, rfl⟩ | ⟨r, rest, i, -, -, -, -, rfl⟩ | rfl := step_next_cases h
  · rw [State.complete_bus] at hlow ⊢
    have hphase := busAfter_of_falling hs hc hp hhigh hlow
    rw [hphase] at hlow ⊢
    exact ⟨enableField_and_payload s.bus, payloadField_and_payload s.bus, by simp [latchAt, hhigh, hlow]⟩
  · simp [hhigh] at hlow
  · simp [hhigh] at hlow

/-! ### The bus bytes of a nibble and of a byte -/

/-- The low four bits of a bus byte are those of the value (R67). -/
theorem busByte_and_data (en : Mask) (rs : Rs) (v : Byte) : busByte en rs v &&& 0xF#8 = v &&& 0xF#8 := by
  apply BitVec.eq_of_getLsbD_eq
  intro i hi
  simp only [BitVec.getLsbD_and, getLsbD_busByte]
  interval_cases i <;> simp

/-- Settles O10: both commits are bus bytes of the one value and register-select, the second without enables. -/
theorem nibbleTransferLaws : Obligations.NibbleTransferLaws := fun v rs m =>
  ⟨busByte m rs v, busByte noMask rs v, rfl, ⟨busByte_and_data m rs v, busByte_and_data noMask rs v⟩, by simp,
    enableField_busByte noMask rs v⟩

theorem toNat_highNibble (b : Byte) : (highNibble b).toNat = b.toNat / 16 := by
  simp [highNibble, Nat.shiftRight_eq_div_pow]

theorem toNat_lowNibble (b : Byte) : (lowNibble b).toNat = b.toNat % 16 := by
  simpa [lowNibble] using Nat.and_two_pow_sub_one_eq_mod b.toNat 4

/-- The data bits of a bus byte are the value's remainder by 16 (R67). -/
theorem toNat_busByte_mod (en : Mask) (rs : Rs) (v : Byte) : (busByte en rs v).toNat % 16 = v.toNat % 16 := by
  rw [toNat_busByte]
  omega

/-- Settles O12: the four commits are the bus bytes of the high nibble and of the low. -/
theorem byteIsTwoNibblesHighFirst : Obligations.ByteIsTwoNibblesHighFirst := by
  intro b rs m
  have hhigh (en : Mask) : (busByte en rs (highNibble b)).toNat % 16 = b.toNat / 16 := by
    rw [toNat_busByte_mod, toNat_highNibble]
    omega
  have hlow (en : Mask) : (busByte en rs (lowNibble b)).toNat % 16 = b.toNat % 16 := by
    rw [toNat_busByte_mod, toNat_lowNibble, Nat.mod_mod]
  exact ⟨_, _, _, _, rfl, rfl, rfl, ⟨hhigh m, hhigh noMask⟩, ⟨hlow m, hlow noMask⟩⟩

/-! ### What the displays receive -/

/-- Whole nibble transfers and waits leave the enables low where they find them low (R100). -/
theorem enableField_busAfterAll {bus : Byte} {es : List Event} (hw : wholeNibbles es = true)
    (h : enableField bus = noMask) : enableField (busAfterAll bus es) = noMask := by
  induction es using wholeNibbles.induct generalizing bus with
  | case1 => exact h
  | case2 es ih => exact ih hw h
  | case3 b => cases hw
  | case4 b es => cases hw
  | case5 b1 b2 es ih =>
    rw [wholeNibbles, Bool.and_eq_true, decide_eq_true_eq] at hw
    obtain ⟨rfl, hes⟩ := hw
    exact ih hes (enableField_and_payload b1)

/-- Slot `k`'s enable line is high only if `m` names the slot, so a phase 1 under `m` does not take it low (R100). -/
def RaisedWithin (k : Slot) (m : Mask) (bus : Byte) : Prop := enableLine k bus = true → m.getLsbD k.val = true

/-- From every such bus the events deliver the latches to slot `k` if `m` names it and nothing otherwise, and leave such a bus
(R104, R172). -/
def Delivers (k : Slot) (m : Mask) (es : List Event) (ls : List Latch) : Prop :=
  ∀ bus, RaisedWithin k m bus →
    receives k bus es = (if m.getLsbD k.val then ls else []) ∧ RaisedWithin k m (busAfterAll bus es)

section
variable {k : Slot} {m : Mask}

theorem raisedWithin_of_enableField {bus : Byte} (h : enableField bus = noMask) : RaisedWithin k m bus := by
  simp [RaisedWithin, enableLine_of_enableField h k]

/-- Deliveries one after the other deliver both (R104). -/
theorem Delivers.append {es fs : List Event} {ls ms : List Latch} (he : Delivers k m es ls) (hf : Delivers k m fs ms) :
    Delivers k m (es ++ fs) (ls ++ ms) := by
  intro bus h
  obtain ⟨hes, hmid⟩ := he bus h
  obtain ⟨hfs, hend⟩ := hf _ hmid
  refine ⟨?_, by rwa [busAfterAll_append]⟩
  rw [receives_append, hes, hfs]
  cases m.getLsbD k.val <;> rfl

theorem delivers_nil : Delivers k m [] [] := fun _ h => ⟨by simp [receives], h⟩

/-- A wait is seen by no slot (R104). -/
theorem delivers_waitExt : Delivers k m [.waitExt] [] := fun _ h => ⟨by simp [receives], h⟩

/-- A nibble transfer delivers its one nibble: phase 1 takes no line low, phase 2 every line of its mask (R100, R104). -/
theorem delivers_nib (v : Byte) (rs : Rs) : Delivers k m (nib v rs m) [⟨rs, v.extractLsb' 0 4⟩] := by
  intro bus h
  refine ⟨?_, raisedWithin_of_enableField (enableField_busByte noMask rs v)⟩
  simp only [nib, receives, latchAt, enableLine_busByte, noMask, BitVec.getLsbD_zero]
  cases hm : m.getLsbD k.val with
  | true => simp
  | false =>
    have hlow : enableLine k bus = false := Bool.eq_false_iff.2 fun hb => Bool.false_ne_true (hm.symm.trans (h hb))
    simp [hlow]

theorem extractLsb'_highNibble (b : Byte) : (highNibble b).extractLsb' 0 4 = b.extractLsb' 4 4 := by
  apply BitVec.eq_of_toNat_eq
  simp [toNat_highNibble, Nat.shiftRight_eq_div_pow]

theorem extractLsb'_lowNibble (b : Byte) : (lowNibble b).extractLsb' 0 4 = b.extractLsb' 0 4 := by
  apply BitVec.eq_of_toNat_eq
  simp [toNat_lowNibble]

/-- A byte delivers its two nibbles, high first (R102). -/
theorem delivers_byteEv (b : Byte) (rs : Rs) : Delivers k m (byteEv b rs m) (byteLatches b rs) := by
  have h := (delivers_nib (k := k) (m := m) (highNibble b) rs).append (delivers_nib (lowNibble b) rs)
  rwa [extractLsb'_highNibble, extractLsb'_lowNibble] at h

/-- A command delivers the byte `op | p`; its wait adds nothing (R120, R121). -/
theorem delivers_cmdEv (op p : Byte) : Delivers k m (cmdEv op p m) (byteLatches (commandByte op p) rsCmd) := by
  have hwait : Delivers k m (if isLong op then [.waitExt] else []) [] := by
    cases isLong op with
    | true => exact delivers_waitExt
    | false => exact delivers_nil
  simpa [cmdEv] using (delivers_byteEv (commandByte op p) rsCmd).append hwait

/-- The reset body delivers its fourteen nibbles: four transfers, then five commands (R140, R144). -/
theorem delivers_resetBody (fs dc em : Byte) : Delivers k m (resetBody m fs dc em) (bodyLatches fs dc em) :=
  have h8 : Delivers k m (nib nib8Bit rsCmd m) [⟨rsCmd, 0x3#4⟩] := delivers_nib nib8Bit rsCmd
  have h4 : Delivers k m (nib nib4Bit rsCmd m) [⟨rsCmd, 0x2#4⟩] := delivers_nib nib4Bit rsCmd
  h8.append h8 |>.append h8 |>.append h4
    |>.append (delivers_cmdEv opFunctionSet fs)
    |>.append (delivers_cmdEv opDisplayControl dc)
    |>.append (delivers_cmdEv opEntryMode em)
    |>.append (delivers_cmdEv opClear 0#8)
    |>.append (delivers_cmdEv opHome 0#8)

end

/-- Against all slots the reset body reaches every slot from any bus at all: the mask names the slot (R228). -/
theorem receives_resetBody_allMask (k : Slot) (bus fs dc em : Byte) :
    receives k bus (resetBody allMask fs dc em) = bodyLatches fs dc em := by
  have hk : allMask.getLsbD k.val = true := getLsbD_allMask k
  rw [(delivers_resetBody fs dc em bus fun _ => hk).1, if_pos hk]

/-- Settles O51: INIT runs the reset body against all slots. -/
theorem initReachesEverySlot : Obligations.InitReachesEverySlot := fun k bus fs dc em _ =>
  receives_resetBody_allMask k bus fs dc em

/-- Settles O52: each request delivers its latches under its mask, and is made of whole nibble transfers. -/
theorem requestReachesExactlyTheNamedSlots : Obligations.RequestReachesExactlyTheNamedSlots := by
  intro k bus s hlow
  have hend (i : Instr) : enableField (busAfterAll bus (eventsOf i s)) = 0b000#3 :=
    enableField_busAfterAll (requestsEmitWholeNibbles i s) hlow
  have hbus : RaisedWithin k s.mask bus := raisedWithin_of_enableField hlow
  refine ⟨fun b => ⟨?_, hend _⟩, fun op p => ⟨?_, hend _⟩, ?_, hend _⟩
  · exact (delivers_byteEv b rsData bus hbus).1
  · exact (delivers_cmdEv op p bus hbus).1
  · cases hall : Config.resetAllSlots with
    | true => simpa [eventsOf, hall] using receives_resetBody_allMask k bus s.fs s.dc s.em
    | false => simpa [eventsOf, hall] using (delivers_resetBody s.fs s.dc s.em bus hbus).1

/-- What one event lets a slot latch is the latch of its bus change (R104). -/
theorem receives_singleton (k : Slot) (bus : Byte) (e : Event) :
    receives k bus [e] = (latchAt k bus (e.busAfter bus)).toList := by
  cases e <;> simp [receives]

/-- Settles O53: the bus before a performed event is the bus after the trace, and nothing else moves either. -/
theorem latchHistoryGrowsByTheEdge : Obligations.LatchHistoryGrowsByTheEdge := by
  intro s t k hs h
  obtain ⟨e, rest, -, rfl⟩ | ⟨r, rest, i, -, -, -, -, rfl⟩ | rfl := step_next_cases h
  · have hbus : busAfterAll Config.busPowerOn s.trace = s.bus := (busAfterAll_eq_lastCommit _ _).trans hs.symm
    simp only [State.received, State.complete_trace, State.complete_bus, receives_append, hbus, receives_singleton]
  · simp [State.received]
  · simp

end Sys2Proof.Machine

/-! The proofs of the statements about WRITE and COMMAND: the bytes they commit and the extended wait, what taking them does, the time
a run takes and the run of a text. -/

namespace Sys2Proof.Machine

/-! ### The commits of a byte and the extended wait -/

/-- A nibble transfer of a value below 16 commits it under the register-select bit, first with the enables (R67, R100). -/
theorem nib_of_and_eq_self {v : Byte} (rs : Rs) (m : Mask) (h : v &&& 0xF#8 = v) :
    nib v rs m =
      [.commit ((m.setWidth 8 <<< 5) ||| (rs.setWidth 8 <<< 4) ||| v), .commit ((rs.setWidth 8 <<< 4) ||| v)] := by
  simp [nib, busByte, noMask, h]

theorem highNibble_and_data (b : Byte) : highNibble b &&& 0xF#8 = highNibble b := by
  apply BitVec.eq_of_getLsbD_eq
  intro i hi
  simp only [highNibble, BitVec.getLsbD_and, BitVec.getLsbD_ushiftRight]
  interval_cases i <;> simp

theorem lowNibble_and_data (b : Byte) : lowNibble b &&& 0xF#8 = lowNibble b := by
  rw [lowNibble, BitVec.and_assoc, BitVec.and_self]

/-- The four commits of a byte, each nibble under the register-select bit (R67, R102). -/
theorem byteEv_eq_commits (b : Byte) (rs : Rs) (m : Mask) :
    byteEv b rs m =
      [.commit ((m.setWidth 8 <<< 5) ||| (rs.setWidth 8 <<< 4) ||| (b >>> 4)),
       .commit ((rs.setWidth 8 <<< 4) ||| (b >>> 4)),
       .commit ((m.setWidth 8 <<< 5) ||| (rs.setWidth 8 <<< 4) ||| (b &&& 0xF#8)),
       .commit ((rs.setWidth 8 <<< 4) ||| (b &&& 0xF#8))] := by
  rw [byteEv, nib_of_and_eq_self rs m (highNibble_and_data b), nib_of_and_eq_self rs m (lowNibble_and_data b)]
  rfl

/-- A byte leaves its low nibble and its register-select on the bus, the enables low (R122). -/
theorem busAfterAll_byteEv (bus b : Byte) (rs : Rs) (m : Mask) :
    busAfterAll bus (byteEv b rs m) = (rs.setWidth 8 <<< 4) ||| (b &&& 0xF#8) := by
  rw [byteEv_eq_commits]
  rfl

theorem isLong_iff (op : Byte) : isLong op = true ↔ op = 0x01#8 ∨ op = 0x02#8 := by
  rw [isLong, Bool.or_eq_true, decide_eq_true_eq, decide_eq_true_eq, opClear, opHome]

/-- The wait that follows a command's byte: after clear and home alone (R121). -/
theorem cmdEv_eq_byteEv_append (op p : Byte) (m : Mask) :
    cmdEv op p m = byteEv (op ||| p) rsCmd m ++ if op = 0x01#8 ∨ op = 0x02#8 then [.waitExt] else [] := by
  rw [cmdEv, if_congr (isLong_iff op) rfl rfl]
  rfl

/-- A command leaves the low nibble of `op | p` on the bus: its wait does not change it (R41, R120). -/
theorem busAfterAll_cmdEv (bus op p : Byte) (m : Mask) :
    busAfterAll bus (cmdEv op p m) = (op ||| p) &&& 0xF#8 := by
  rw [cmdEv_eq_byteEv_append, busAfterAll_append, busAfterAll_byteEv]
  split <;> simp [rsCmd]

/-- Settles O13: the byte is that of `op | p`, and what is appended to it tests `op`. -/
theorem extendedWaitReadsTheOpcodeAlone : Obligations.ExtendedWaitReadsTheOpcodeAlone := by
  intro op p m
  refine ⟨_, rfl, rfl, rfl, fun hlong => ?_, fun hclear hhome => ?_⟩
  · rw [cmdEv_eq_byteEv_append, if_pos hlong]
    rfl
  · rw [cmdEv_eq_byteEv_append, if_neg (not_or.2 ⟨hclear, hhome⟩), List.append_nil]
    rfl

/-! ### WRITE and COMMAND taken -/

/-- Settles O20: admission decides what becomes of the request, and its events are the commits of one data byte. -/
theorem writeSendsItsByteAsData : Obligations.WriteSendsItsByteAsData := by
  intro b s
  refine ⟨fun hp hc => ?_, fun hp hc => ?_, exec_of_busy _, busAfterAll_byteEv s.bus b rsData s.mask, decode_pack_write b⟩
  · rw [exec_write, accept_accepted (isInit := false) hp hc, byteEv_eq_commits]
    rfl
  · exact accept_notConstructed hp hc

/-- Settles O21: admission decides what becomes of the request, and its events are the commits of one command byte and the wait. -/
theorem commandSendsOpcodeOrParameter : Obligations.CommandSendsOpcodeOrParameter := by
  intro op p s
  refine ⟨fun hp hc => ?_, fun hp hc => ?_, exec_of_busy _, busAfterAll_cmdEv s.bus op p s.mask, decode_pack_command op p⟩
  · rw [exec_command, accept_accepted (isInit := false) hp hc, cmdEv_eq_byteEv_append, byteEv_eq_commits]
    simp [State.issue, rsCmd]
  · exact accept_notConstructed hp hc

/-! ### The time of a run -/

@[simp] theorem waitsIn_append (es fs : List Event) : waitsIn (es ++ fs) = waitsIn es + waitsIn fs :=
  List.count_append

/-- Every event takes at least `T_EXT` for each wait that it is: one or none (R206). -/
theorem tExt_mul_waitsIn_le_duration (e : Event) (n : Nat) : Config.tExt * waitsIn [e] ≤ e.duration n := by
  cases e with
  | commit b => exact Nat.zero_le _
  | waitExt => simpa [waitsIn] using tExt_le_duration_waitExt n

/-- Between the two states the ports have taken at least `T_EXT` for every wait performed (R206). -/
def State.TakesTExt (s t : State) : Prop :=
  s.elapsed ≤ t.elapsed ∧ s.elapsed + Config.tExt * waitsIn t.trace ≤ t.elapsed + Config.tExt * waitsIn s.trace

theorem State.TakesTExt.refl (s : State) : s.TakesTExt s := ⟨le_rfl, le_rfl⟩

theorem State.TakesTExt.trans {s t u : State} (hst : s.TakesTExt t) (htu : t.TakesTExt u) : s.TakesTExt u := by
  obtain ⟨htime, hwaits⟩ := hst
  obtain ⟨htime', hwaits'⟩ := htu
  exact ⟨htime.trans htime', by omega⟩

/-- A step that performs an event takes that event's duration, and every other step takes no time and performs none (R211). -/
theorem step_takesTExt {s t : State} (h : step s = .next t) : s.TakesTExt t := by
  obtain ⟨e, rest, -, rfl⟩ | ⟨r, rest, i, -, -, -, -, rfl⟩ | rfl := step_next_cases h
  · have hdur := tExt_mul_waitsIn_le_duration e s.trace.length
    simp only [State.TakesTExt, State.complete_elapsed, State.complete_trace, waitsIn_append, Nat.mul_add]
    omega
  · simp [State.TakesTExt]
  · exact .refl _

/-- Settles O35, by induction on the run. -/
theorem runsTakeTExtForEveryWait : Obligations.RunsTakeTExtForEveryWait :=
  runs_induct (P := State.TakesTExt) .refl (fun _ _ _ hst ih => (step_takesTExt hst).trans ih)

/-! ### The run of a text -/

/-- An idle fair session takes a WRITE and performs its four commits in five steps, and then is idle under the same mask (R122, R211).
Unlike `runs_request` this asks nothing of `RSTATE`, and so is of any session. -/
theorem runs_write {c : Byte} {rest : List Request} {s : State} (hc : s.constructed = true) (hp : s.pending = [])
    (hf : s.fair) (hr : s.requests = encode (.write c) :: rest) :
    ∃ t, runs 5 s = .next t ∧ t.trace = s.trace ++ byteEv c rsData s.mask ∧ t.pending = [] ∧ t.requests = rest ∧
      t.mask = s.mask ∧ t.constructed = true ∧ t.fair := by
  have hstep : step s = .next (s.accepted (.write c)) := by
    rw [step_presented_instr hp hr (decode_encode _), exec_of_admits (i := .write c) hp hc]
  obtain ⟨t, hrun, htrace, hpend, -, hframe⟩ := runs_performs_pending 4 (s.accepted (.write c)) hf le_rfl
  refine ⟨t, by rw [runs_succ_of_next 4 hstep, hrun], htrace, hpend, ?_, hframe.mask, hframe.constructed.trans hc, ?_⟩
  · rw [hframe.requests, State.accepted_requests, hr, List.tail_cons]
  · exact ⟨hframe.transportAcks.trans hf.1, hframe.waitAcks.trans hf.2⟩

/-- Settles O56, by induction on the text: the first byte's WRITE leaves an idle session with the rest of the text on the port. -/
theorem writeTextTrace : Obligations.WriteTextTrace := by
  intro text rest s hc hp hf hr
  induction text generalizing s with
  | nil => exact ⟨s, rfl, by simp, hp, hr, rfl, hc⟩
  | cons c text ih =>
    obtain ⟨t, hrun, htrace, hpend, hreq, hmask, hcons, hfair⟩ := runs_write hc hp hf hr
    obtain ⟨u, hrun', htrace', hpend', hreq', hmask', hcons'⟩ := ih t hcons hpend hfair hreq
    refine ⟨u, ?_, ?_, hpend', hreq', hmask'.trans hmask, hcons'⟩
    · rw [List.length_cons, Nat.mul_succ, Nat.add_comm, runs_add 5 _ hrun, hrun']
    · rw [htrace', htrace, hmask, List.flatMap_cons, List.append_assoc]
      rfl

end Sys2Proof.Machine

/-! The proofs of the statements about the reset sequencer: the events of the reset body, what taking RESET and INIT does, and how
`RSTATE` moves along the body. -/

namespace Sys2Proof.Machine

/-! ### The events of the reset body -/

/-- A nibble sent as a command: register-select is 0, so phase 2 commits the bare nibble (R67, R68, R100). -/
theorem nib_rsCmd {v : Byte} (m : Mask) (h : v &&& 0xF#8 = v) :
    nib v rsCmd m = [.commit ((m.setWidth 8 <<< 5) ||| v), .commit v] := by
  rw [nib_of_and_eq_self rsCmd m h]
  simp [rsCmd]

/-- A byte sent as a command: its two nibbles with register-select 0 (R102). -/
theorem byteEv_rsCmd (b : Byte) (m : Mask) :
    byteEv b rsCmd m =
      [.commit ((m.setWidth 8 <<< 5) ||| (b >>> 4)), .commit (b >>> 4)] ++
      [.commit ((m.setWidth 8 <<< 5) ||| (b &&& 0xF#8)), .commit (b &&& 0xF#8)] := by
  rw [byteEv_eq_commits]
  simp [rsCmd]

/-- The five commands of the reset body are each a byte, the opcode with its parameter OR-ed in whole, and only clear and home are
followed by the extended wait (R121, R140, R145). -/
theorem resetBody_eq_bytes (m : Mask) (fs dc em : Byte) :
    resetBody m fs dc em =
      nib 0x3#8 rsCmd m ++ nib 0x3#8 rsCmd m ++ nib 0x3#8 rsCmd m ++ nib 0x2#8 rsCmd m ++
      byteEv (0x20#8 ||| fs) rsCmd m ++ byteEv (0x08#8 ||| dc) rsCmd m ++ byteEv (0x04#8 ||| em) rsCmd m ++
      byteEv 0x01#8 rsCmd m ++ [.waitExt] ++ byteEv 0x02#8 rsCmd m ++ [.waitExt] := by
  simp [resetBody, cmdEv_eq_byteEv_append, opFunctionSet, opDisplayControl, opEntryMode, opClear, opHome, nib8Bit, nib4Bit]

/-- The commits of the reset body (R144). -/
@[simp] theorem commitsIn_resetBody_length (m : Mask) (fs dc em : Byte) :
    (commitsIn (resetBody m fs dc em)).length = 28 := rfl

/-- The extended waits of the reset body (R144). -/
@[simp] theorem waitsIn_resetBody (m : Mask) (fs dc em : Byte) : waitsIn (resetBody m fs dc em) = 2 := rfl

theorem rsField_of_mem_commitsIn_nib (v : Byte) (rs : Rs) (m : Mask) : ∀ b ∈ commitsIn (nib v rs m), rsField b = rs := by
  simp [nib]

theorem rsField_of_mem_commitsIn_byteEv (c : Byte) (rs : Rs) (m : Mask) :
    ∀ b ∈ commitsIn (byteEv c rs m), rsField b = rs := by
  rw [byteEv, commitsIn_append, List.forall_mem_append]
  exact ⟨rsField_of_mem_commitsIn_nib _ rs m, rsField_of_mem_commitsIn_nib _ rs m⟩

/-- The reset body sends nothing as data: each of its parts commits under `RS_CMD` (R140). -/
theorem rsField_of_mem_commitsIn_resetBody (m : Mask) (fs dc em : Byte) :
    ∀ b ∈ commitsIn (resetBody m fs dc em), rsField b = rsCmd := by
  have hnib := fun v => rsField_of_mem_commitsIn_nib v rsCmd m
  have hbyte := fun c => rsField_of_mem_commitsIn_byteEv c rsCmd m
  simp only [resetBody_eq_bytes, commitsIn_append, commitsIn_cons_waitExt, commitsIn_nil, List.append_nil,
    List.forall_mem_append, and_assoc]
  exact ⟨hnib _, hnib _, hnib _, hnib _, hbyte _, hbyte _, hbyte _, hbyte _, hbyte _⟩

/-- Settles O14: the body's parts, each written as its commits. -/
theorem resetBodyIsTheThirtyEvents : Obligations.ResetBodyIsTheThirtyEvents := by
  intro m fs dc em
  refine ⟨?_, commitsIn_resetBody_length m fs dc em, waitsIn_resetBody m fs dc em,
    rsField_of_mem_commitsIn_resetBody m fs dc em⟩
  have h3 : nib 0x3#8 rsCmd m = _ := nib_rsCmd m rfl
  have h2 : nib 0x2#8 rsCmd m = _ := nib_rsCmd m rfl
  simp only [resetBody_eq_bytes, h3, h2, byteEv_rsCmd]

/-! ### RESET and INIT taken -/

/-- Settles O22: admission decides what becomes of the request, and the two values of `RESET_ALL_SLOTS` give the mask of its body and
the mask it leaves. -/
theorem resetRerunsTheBody : Obligations.ResetRerunsTheBody := by
  intro s
  have htaken (hp : s.pending = []) (hc : s.constructed = true) : exec .reset s = .next (s.accepted .reset) :=
    exec_of_admits (i := .reset) hp hc
  refine ⟨fun hp hc hall => ?_, fun hp hc hall => ?_, fun hp hc => ?_, fun hp hc => ?_,
    exec_of_busy .reset, decode_pack_reset⟩
  · rw [htaken hp hc, State.accepted, State.writeRegs, eventsOf, hall]
    rfl
  · rw [htaken hp hc, State.accepted, State.writeRegs, eventsOf, hall]
    rfl
  · refine ⟨s.accepted .reset, htaken hp hc, by simp [eventsOf], rfl, hc, rfl, rfl, rfl, rfl, rfl, ?_⟩
    cases hall : Config.resetAllSlots with
    | false => exact .inl (by simp [State.accepted, State.writeRegs, hall])
    | true => exact .inr (by simp [State.accepted, State.writeRegs, hall, defaultMask])
  · rw [exec_reset, accept_notConstructed hp hc]

/-- Settles O23: INIT is admitted exactly when no session exists, and then makes its register writes and its body pending at once. -/
theorem initConstructsTheSession : Obligations.InitConstructsTheSession := by
  intro fs dc em s
  refine ⟨fun hp hc => ?_, fun hp hc => ?_, exec_of_busy (.init fs dc em),
    decode_pack_init fs dc em⟩
  · exact exec_of_admits (i := .init fs dc em) hp hc
  · rw [exec_init, accept_alreadyConstructed hp hc]

/-! ### `RSTATE` along the body -/

/-- While `RSTATE` tells how many events of a reset body are left, each event performed keeps it telling so (R141). -/
theorem runs_rstate_of_body {n : Nat} {s : State} (hf : s.fair) (hr : s.rstate = bodyRState s.pending.length)
    (hn : n ≤ s.pending.length) : ∃ u, runs n s = .next u ∧ u.rstate = bodyRState (s.pending.length - n) := by
  induction n generalizing s with
  | zero => exact ⟨s, rfl, hr⟩
  | succ n ih =>
    rcases hp : s.pending with _ | ⟨e, rest⟩
    · simp [hp] at hn
    · have hstep : step s = .next (s.complete e rest) := by rw [step_performing hp, perform_next (hf.acks e)]
      have hadvance : (s.complete e rest).rstate = bodyRState rest.length := by
        rw [State.complete_rstate, hr, hp, List.length_cons, advance_bodyRState]
      obtain ⟨u, hrun, hu⟩ := ih (s := s.complete e rest) hf hadvance (by simpa [hp] using hn)
      exact ⟨u, by rw [runs_succ_of_next n hstep, hrun], by simpa using hu⟩

/-- RESET and INIT begin a reset body: thirty events are pending and `RSTATE` is that of a body with all of them left (R141 to R143). -/
theorem accepted_begins_body {i : Instr} (s : State) (hi : i = .reset ∨ ∃ fs dc em, i = .init fs dc em) :
    (s.accepted i).pending.length = 30 ∧ (s.accepted i).rstate = bodyRState 30 := by
  obtain rfl | ⟨fs, dc, em, rfl⟩ := hi
  · exact ⟨by simp [eventsOf], rfl⟩
  · exact ⟨rfl, rfl⟩

/-- `RSTATE` by the number of events performed, the thresholds counted from the body's start (R141). -/
theorem bodyRState_thirty_sub {n : Nat} (hn : n ≤ 30) :
    bodyRState (30 - n) =
      if n < 6 then .unknown else if n < 8 then .forcedEightBit else if n < 20 then .fourBitConfirmed
      else if n < 30 then .configured else .ready := by
  obtain h | h | h | h | h : n < 6 ∨ 6 ≤ n ∧ n < 8 ∨ 8 ≤ n ∧ n < 20 ∨ 20 ≤ n ∧ n < 30 ∨ n = 30 := by omega
  all_goals grind [bodyRState]

/-- Settles O43: the accepted request begins a body, and `RSTATE` moves along it. -/
theorem rStateMovesAlongTheBody : Obligations.RStateMovesAlongTheBody := by
  intro i s t n hi hp hf h hn
  obtain ⟨hbusy, -⟩ | ⟨-, -, rfl⟩ := exec_cases h
  · exact absurd hp hbusy
  · obtain ⟨hlen, hstart⟩ := accepted_begins_body s hi
    have hfair : (s.accepted i).fair := by simpa [State.fair] using hf
    obtain ⟨u, hrun, hu⟩ := runs_rstate_of_body hfair (by rw [hlen, hstart]) (hn.trans_eq hlen.symm)
    exact ⟨u, hrun, by rw [hu, hlen, bodyRState_thirty_sub hn]⟩

end Sys2Proof.Machine

/-! The proofs of the statements about the display selector: what taking SELECT does, and how long the mask it selects lasts. -/

namespace Sys2Proof.Machine

/-! ### SELECT taken, and the requests that use its mask -/

/-- Settles O18: admission decides what becomes of the request, and its one register write is the mask. -/
theorem selectReplacesTheMask : Obligations.SelectReplacesTheMask := by
  intro m s
  refine ⟨fun hp hc => ?_, fun hp hc => ?_, exec_of_busy (.select m), decode_pack_select⟩
  · exact exec_of_admits (i := .select m) hp hc
  · rw [exec_select, accept_notConstructed hp hc]

section
variable {s : State} (hp : s.pending = []) (hc : s.constructed = true)
include hp hc

/-- An idle session sends a WRITE's byte to the slots of its mask (R122). -/
theorem exec_write_of_idle_session (b : Byte) :
    exec (.write b) s = .next { s with pending := byteEv b rsData s.mask, requests := s.requests.tail } :=
  exec_of_admits (i := .write b) hp hc

/-- An idle session sends a COMMAND's byte to the slots of its mask (R120). -/
theorem exec_command_of_idle_session (op p : Byte) :
    exec (.command op p) s = .next { s with pending := cmdEv op p s.mask, requests := s.requests.tail } :=
  exec_of_admits (i := .command op p) hp hc

end

/-- Settles O19: the state that SELECT leaves is an idle session whose mask is the selected one, so what each request does in an idle
session, SELECT again among them, is what comes next. -/
theorem selectIsIdempotentAndObservedNext : Obligations.SelectIsIdempotentAndObservedNext := by
  intro m s hp hc
  have htaken : exec (.select m) s = .next (s.accepted (.select m)) := exec_of_admits (i := .select m) hp hc
  have hidle : (s.accepted (.select m)).pending = [] := rfl
  have hsession : (s.accepted (.select m)).constructed = true := hc
  obtain ⟨hagain, -⟩ := selectReplacesTheMask m (s.accepted (.select m))
  obtain ⟨hreset, -⟩ := resetRerunsTheBody (s.accepted (.select m))
  exact ⟨_, htaken, hagain hidle hsession, hidle, State.accepted_trace s _, ⟨rfl, rfl, rfl, rfl, State.accepted_bus s _⟩,
    exec_write_of_idle_session hidle hsession, exec_command_of_idle_session hidle hsession, hreset hidle hsession⟩

/-! ### How long a mask lasts -/

/-- A request that an existing session takes without changing its mask, or refuses: no SELECT, and no RESET of all slots
(R142, R170). -/
def LeavesMask (i : Instr) : Prop := (∀ m, i ≠ .select m) ∧ (i = .reset → Config.resetAllSlots = false)

/-- A session under the mask `m`, with no word on the port that would change the mask. -/
structure State.HoldsMask (m : Mask) (s : State) : Prop where
  mask : s.mask = m
  constructed : s.constructed = true
  requests : ∀ r ∈ s.requests, ∀ i, decode r = .instr i → LeavesMask i

/-- Of the requests that a session accepts, only SELECT and a RESET of all slots write the mask (R21). -/
theorem State.accepted_mask_of_leavesMask {s : State} {i : Instr} (hc : s.constructed = true) (ha : admits i s)
    (hi : LeavesMask i) : (s.accepted i).mask = s.mask := by
  obtain ⟨hselect, hreset⟩ := hi
  cases i with
  | select m => exact absurd rfl (hselect m)
  | write b => rfl
  | command op p => rfl
  | reset => simp [State.accepted, State.writeRegs, hreset rfl]
  | init fs dc em => simp [admits, hc] at ha

/-- A step of such a session leads to another: an event performed writes no mask, and neither does the request taken, whose word
leaves the port. -/
theorem step_keeps_holdsMask {m : Mask} {s t : State} (hs : s.HoldsMask m) (h : step s = .next t) : t.HoldsMask m := by
  obtain ⟨e, rest, -, rfl⟩ | ⟨r, rest, i, -, hr, hd, ha, rfl⟩ | rfl := step_next_cases h
  · exact ⟨hs.mask, hs.constructed, hs.requests⟩
  · have hleaves : LeavesMask i := hs.requests r (by simp [hr]) i hd
    refine ⟨(State.accepted_mask_of_leavesMask hs.constructed ha hleaves).trans hs.mask, State.accepted_constructed ha, ?_⟩
    intro r' hr'
    rw [State.accepted_requests] at hr'
    exact hs.requests r' (List.mem_of_mem_tail hr')
  · exact hs

theorem runs_keep_holdsMask {m : Mask} {n : Nat} {s t : State} (h : runs n s = .next t) (hs : s.HoldsMask m) :
    t.HoldsMask m :=
  runs_induct (P := fun s t => s.HoldsMask m → t.HoldsMask m) (fun _ hs => hs)
    (fun _ _ _ hst ih hs => ih (step_keeps_holdsMask hs hst)) n s t h hs

/-- Settles O59: SELECT leaves a session under its mask, every step of the run keeps it one, and an idle session sends to the slots
of its mask. -/
theorem selectedMaskLastsUntilChanged : Obligations.SelectedMaskLastsUntilChanged := by
  intro m n s u t hp hc hselect hwords hrun
  have hu : u.HoldsMask m := by
    obtain ⟨hbusy, -⟩ | ⟨-, -, rfl⟩ := exec_cases hselect
    · exact absurd hp hbusy
    · exact ⟨rfl, hc, hwords⟩
  obtain ⟨rfl, hsession, -⟩ := runs_keep_holdsMask hrun hu
  exact ⟨rfl, hsession, fun hidle =>
    ⟨exec_write_of_idle_session hidle hsession, exec_command_of_idle_session hidle hsession⟩⟩

end Sys2Proof.Machine

/-! The proofs of the statements about the step: the word it takes and the rows of admission, the event it performs or is stuck at, and
that a fair run ends. -/

namespace Sys2Proof.Machine

/-! ### The word a step takes -/

/-- Settles O27. -/
theorem stepRunsThePresentedRequest : Obligations.StepRunsThePresentedRequest := by
  intro s r i hp hhead _ hd
  obtain ⟨rest, hr⟩ := List.head?_eq_some_iff.1 hhead
  exact step_presented_instr hp hr hd

/-- A word put on the port by its number is the first of the host's words, with no event pending (R207; log entry 12). -/
theorem State.present_toNat (s : State) (r : Request) :
    s.present r.toNat = { s with pending := [], requests := r :: s.requests } := by
  rw [State.present, BitVec.ofNat_toNat, BitVec.setWidth_eq]

/-- Settles O28: the word is the one presented, and decodes to its request. -/
theorem presentedWordIsTakenNext : Obligations.PresentedWordIsTakenNext := by
  intro s i
  rw [State.withFetchWord, State.present_toNat]
  exact step_presented_instr rfl rfl (decode_encode i)

/-! ### The event a step performs -/

/-- A step with an event pending completes it if its port acknowledges, and otherwise is stuck (R211). -/
theorem step_of_pending {s : State} {e : Event} {rest : List Event} (h : s.pending = e :: rest) :
    step s = if s.acks e then .next (s.complete e rest) else .fault (silentFault e) := by
  rw [step_performing h, perform_eq]

/-- Settles O29: the step completes the event, and a completed event leaves all else as it was. -/
theorem stepPerformsTheHeadEvent : Obligations.StepPerformsTheHeadEvent := by
  intro s e rest hp ha
  refine ⟨s.complete e rest, by rw [step_of_pending hp, if_pos ha], rfl, rfl, ?_, ?_, rfl, rfl, rfl, rfl, rfl, rfl, rfl, rfl⟩
  · rintro b rfl
    rfl
  · rintro rfl
    rfl

/-- A step with no event pending is not stuck: no request's meaning faults (R200). -/
theorem step_ne_fault_of_idle {s : State} (hp : s.pending = []) (f : Fault) : step s ≠ .fault f := by
  rcases hr : s.requests with _ | ⟨r, rest⟩
  · simp [step_idle hp hr]
  · cases hd : decode r with
    | instr i =>
      rw [step_presented_instr hp hr hd]
      exact (admittedRequestsAreAccepted i s).1 f
    | reservedOp op => simp [step_presented_reserved hp hr hd]

/-- A step is stuck exactly at a pending event whose port is silent (R200, R211). -/
theorem exists_step_fault_iff (s : State) :
    (∃ f, step s = .fault f) ↔ ∃ e rest, s.pending = e :: rest ∧ s.acks e = false := by
  rcases hp : s.pending with _ | ⟨e, rest⟩
  · simp [step_ne_fault_of_idle hp]
  · cases ha : s.acks e <;> simp [step_of_pending hp, ha]

/-- Settles O32: in a fair state no port is silent. -/
theorem stuckExactlyOnASilentPort : Obligations.StuckExactlyOnASilentPort := by
  refine fun s => ⟨exists_step_fault_iff s, fun hf f hstep => ?_⟩
  obtain ⟨e, rest, -, hsilent⟩ := (exists_step_fault_iff s).1 ⟨f, hstep⟩
  rw [hf.acks e] at hsilent
  cases hsilent

/-- Settles O31, by induction on the number of steps: each answers the same state. -/
theorem idleBlockKeepsItsState : Obligations.IdleBlockKeepsItsState := by
  intro s n hp hr
  induction n with
  | zero => rfl
  | succ n ih => rw [runs_succ_of_next n (step_idle hp hr), ih]

/-! ### The rows of admission -/

/-- INIT is the request of code 5, and of no other (R61). -/
theorem isInitRequest_of_decode {r : Request} {i : Instr} (hd : decode r = .instr i) :
    isInitRequest i = decide (r.op = 5#3) := by
  obtain hop | hop | hop | hop | hop | hop := op_reserved_or_used r.op
  · rw [decode_of_reserved hop] at hd
    cases hd
  all_goals
    rw [← pack_fields r, hop] at hd
    simp only [decode_pack_select, decode_pack_write, decode_pack_command, decode_pack_reset, decode_pack_init,
      Decoded.instr.injEq] at hd
    subst hd
    rw [hop]
    rfl

/-- A request is admitted by its code: INIT before the session exists, the others after (R202 rows 3 to 5). -/
theorem admits_iff_of_decode {r : Request} {i : Instr} (s : State) (hd : decode r = .instr i) :
    admits i s ↔ (r.op = 5#3 ↔ s.constructed = false) := by
  rw [admits_iff, isInitRequest_of_decode hd]
  cases s.constructed <;> simp

/-- The reason of a refusal is told by the code (R202 rows 3 and 4). -/
theorem refusalOf_of_decode {r : Request} {i : Instr} (hd : decode r = .instr i) :
    refusalOf i = if r.op = 5#3 then .alreadyConstructed else .notConstructed := by
  simp [refusalOf, isInitRequest_of_decode hd]

/-- While an event is pending no step refuses, and the words on the port stay there (R202 row 1). -/
theorem step_holds_requests_of_busy {s : State} (hp : s.pending ≠ []) :
    (∀ q, step s ≠ .refused q) ∧ ∀ t, step s = .next t → t.requests = s.requests := by
  obtain ⟨e, rest, he⟩ := List.exists_cons_of_ne_nil hp
  rw [step_of_pending he]
  cases s.acks e with
  | false => simp
  | true =>
    refine ⟨fun q => by simp, ?_⟩
    rintro t ⟨⟩
    rfl

section
variable {s : State} {r : Request} {rest : List Request} {i : Instr}
  (hp : s.pending = []) (hr : s.requests = r :: rest) (hd : decode r = .instr i)
include hp hr hd

/-- A presented request that the session's existence does not ask for is refused, for the reason its code tells (R202 rows 3 and 4). -/
theorem step_presented_of_not_admits (ha : ¬ (r.op = 5#3 ↔ s.constructed = false)) :
    step s = .refused (if r.op = 5#3 then .alreadyConstructed else .notConstructed) := by
  rw [step_presented_instr hp hr hd, exec_of_not_admits hp (mt (admits_iff_of_decode s hd).1 ha), refusalOf_of_decode hd]

/-- A presented request that the session's existence asks for is accepted (R202 row 5). -/
theorem step_presented_of_admits (ha : r.op = 5#3 ↔ s.constructed = false) : step s = .next (s.accepted i) := by
  rw [step_presented_instr hp hr hd, exec_of_admits hp ((admits_iff_of_decode s hd).2 ha)]

end

/-- Settles O26, row by row: the word is held, is Reserved, or decodes to a request which its code and the session's existence have
refused or accepted. -/
theorem admissionRowsInOrder : Obligations.AdmissionRowsInOrder := by
  intro r rest s hr
  refine ⟨fun hbusy => ?_, fun hp hres => step_presented_reserved hp hr (decode_of_reserved hres), fun hp hres => ?_⟩
  · obtain ⟨hnever, hkept⟩ := step_holds_requests_of_busy hbusy
    exact ⟨by simp [State.reqReady, hbusy], hnever, fun t ht => (hkept t ht).trans hr⟩
  · obtain ⟨i, hd⟩ := decode_of_not_reserved hres
    refine ⟨fun hop hc => ?_, fun hop hc => ?_, fun ha => ?_⟩
    · rw [step_presented_of_not_admits hp hr hd (by simp [hop, hc]), if_neg hop]
    · rw [step_presented_of_not_admits hp hr hd (by simp [hop, hc]), if_pos hop]
    · exact ⟨s.accepted i, i, hd, step_presented_instr hp hr hd, step_presented_of_admits hp hr hd ha,
        State.accepted_pending s i, by rw [State.accepted_requests, hr, List.tail_cons], State.accepted_trace s i,
        State.accepted_bus s i⟩

/-! ### The end of a fair run -/

/-- A bound on the steps a fair run still takes: one for each pending event, and for each word one to take it and at most thirty to
perform its events (R211, R229). -/
def State.stepsLeft (s : State) : Nat := s.pending.length + 31 * s.requests.length

/-- No request has more than the thirty events of the reset body (R229). -/
theorem eventsOf_length_le (i : Instr) (s : State) : (eventsOf i s).length ≤ 30 := by
  rw [eventsOf_length]
  cases i with
  | command op p =>
    simp only [commitCount, waitCount]
    split <;> omega
  | _ => simp [commitCount, waitCount]

theorem stepsLeft_complete_lt {s : State} {e : Event} {rest : List Event} (hp : s.pending = e :: rest) :
    (s.complete e rest).stepsLeft < s.stepsLeft := by
  simp [State.stepsLeft, hp]

theorem stepsLeft_accepted_lt {s : State} {r : Request} {rest : List Request} (hr : s.requests = r :: rest) (i : Instr) :
    (s.accepted i).stepsLeft < s.stepsLeft := by
  have hle := eventsOf_length_le i s
  simp only [State.stepsLeft, State.accepted_pending, State.accepted_requests, hr, List.tail_cons, List.length_cons]
  omega

theorem finished_iff_stepsLeft (s : State) : s.finished = true ↔ s.stepsLeft = 0 := by
  simp [State.finished, State.stepsLeft, and_comm]

/-- The step of a fair state with steps left refuses, or leads to a fair state with fewer (R211). -/
theorem step_of_fair {s : State} (hf : s.fair) (hleft : s.stepsLeft ≠ 0) :
    (∃ q, step s = .refused q) ∨ ∃ t, step s = .next t ∧ t.fair ∧ t.stepsLeft < s.stepsLeft := by
  rcases hp : s.pending with _ | ⟨e, rest⟩
  · rcases hr : s.requests with _ | ⟨r, rest⟩
    · exact absurd (by simp [State.stepsLeft, hp, hr]) hleft
    · cases hd : decode r with
      | reservedOp op => exact .inl ⟨_, step_presented_reserved hp hr hd⟩
      | instr i =>
        rw [step_presented_instr hp hr hd]
        by_cases ha : admits i s
        · exact .inr ⟨_, exec_of_admits hp ha, by simpa [State.fair] using hf, stepsLeft_accepted_lt hr i⟩
        · exact .inl ⟨_, exec_of_not_admits hp ha⟩
  · exact .inr ⟨s.complete e rest, by rw [step_of_pending hp, if_pos (hf.acks e)], hf, stepsLeft_complete_lt hp⟩

/-- Settles O57, by induction on the steps left: each step takes at least one of them or refuses, and with none left the run is
finished. -/
theorem fairRunsEnd : Obligations.FairRunsEnd := by
  intro s hf
  change ∃ n, n ≤ s.stepsLeft ∧ _
  induction hk : s.stepsLeft using Nat.strong_induction_on generalizing s with
  | _ k ih =>
    subst hk
    by_cases hleft : s.stepsLeft = 0
    · exact ⟨0, Nat.zero_le _, .inl ⟨s, rfl, (finished_iff_stepsLeft s).2 hleft⟩⟩
    · obtain ⟨q, hq⟩ | ⟨t, hstep, hft, hlt⟩ := step_of_fair hf hleft
      · exact ⟨1, Nat.pos_of_ne_zero hleft, .inr ⟨q, runs_succ_of_refused 0 hq⟩⟩
      · obtain ⟨n, hn, hend⟩ := ih t.stepsLeft hlt t hft rfl
        exact ⟨n + 1, by omega, by rwa [runs_succ_of_next n hstep]⟩

end Sys2Proof.Machine

/-! The proofs of the statements about event counts and the empty mask: the commits and waits of each request, and the enables its
commits raise. -/

namespace Sys2Proof.Machine

/-! ### Commits and waits counted -/

/-- Every event is a commit or a wait (R11, R73). -/
theorem commitsIn_length_add_waitsIn (es : List Event) : (commitsIn es).length + waitsIn es = es.length := by
  induction es with
  | nil => rfl
  | cons e es ih =>
    cases e with
    | commit b => simpa [waitsIn, Nat.add_right_comm] using ih
    | waitExt => simpa [waitsIn, ← Nat.add_assoc] using ih

@[simp] theorem waitsIn_byteEv (b : Byte) (rs : Rs) (m : Mask) : waitsIn (byteEv b rs m) = 0 := rfl

/-- A command waits once after clear and home and never otherwise, whatever its parameter and the mask (R121). -/
theorem waitsIn_cmdEv (op p : Byte) (m : Mask) :
    waitsIn (cmdEv op p m) = if op = 0x01#8 ∨ op = 0x02#8 then 1 else 0 := by
  rw [cmdEv_eq_byteEv_append, waitsIn_append, waitsIn_byteEv, Nat.zero_add]
  split <;> rfl

/-- The waits of each request, the same in every state (R229). -/
theorem waitsIn_eventsOf (i : Instr) (s : State) : waitsIn (eventsOf i s) = waitCount i := by
  cases i with
  | select m => rfl
  | write b => exact waitsIn_byteEv b rsData s.mask
  | command op p => exact waitsIn_cmdEv op p s.mask
  | reset => exact waitsIn_resetBody _ s.fs s.dc s.em
  | init fs dc em => exact waitsIn_resetBody allMask fs dc em

/-- The commits of each request, the same in every state: the events that are no wait (R229). -/
theorem commitsIn_eventsOf_length (i : Instr) (s : State) : (commitsIn (eventsOf i s)).length = commitCount i := by
  have hsplit := commitsIn_length_add_waitsIn (eventsOf i s)
  rw [waitsIn_eventsOf, eventsOf_length] at hsplit
  exact Nat.add_right_cancel hsplit

/-- Settles O16: the waits are counted part by part, and the commits are the other events. -/
theorem eventCountsOfRequests : Obligations.EventCountsOfRequests := fun i s =>
  ⟨commitsIn_eventsOf_length i s, waitsIn_eventsOf i s, eventsOf_length i s, eventsOf_length_le i s⟩

/-! ### The enables a request raises -/

/-- Every commit carries the enables of `m` or none: phase 1 and phase 2 of R100. -/
def RaisesOnly (m : Mask) (es : List Event) : Prop := ∀ b ∈ commitsIn es, enableField b = m ∨ enableField b = noMask

section
variable {m : Mask}

@[simp] theorem raisesOnly_append {es fs : List Event} : RaisesOnly m (es ++ fs) ↔ RaisesOnly m es ∧ RaisesOnly m fs := by
  simp only [RaisesOnly, commitsIn_append, List.forall_mem_append]

theorem raisesOnly_of_no_commit {es : List Event} (h : commitsIn es = []) : RaisesOnly m es := by
  simp [RaisesOnly, h]

@[simp] theorem raisesOnly_nib (v : Byte) (rs : Rs) : RaisesOnly m (nib v rs m) := by
  simp [RaisesOnly, nib]

@[simp] theorem raisesOnly_byteEv (b : Byte) (rs : Rs) : RaisesOnly m (byteEv b rs m) :=
  raisesOnly_append.2 ⟨raisesOnly_nib _ rs, raisesOnly_nib _ rs⟩

@[simp] theorem raisesOnly_cmdEv (op p : Byte) : RaisesOnly m (cmdEv op p m) :=
  raisesOnly_append.2 ⟨raisesOnly_byteEv _ rsCmd, raisesOnly_of_no_commit (by split <;> rfl)⟩

/-- The reset body is four nibbles and five commands under one mask (R140). -/
@[simp] theorem raisesOnly_resetBody (fs dc em : Byte) : RaisesOnly m (resetBody m fs dc em) := by
  simp [resetBody]

end

/-- A request of a session raises only the enables of the mask in force, RESET when it does not address all slots (R120, R122, R142). -/
theorem raisesOnly_eventsOf {i : Instr} {s : State} (ha : admits i s) (hc : s.constructed = true)
    (hreset : i = .reset → Config.resetAllSlots = false) : RaisesOnly s.mask (eventsOf i s) := by
  cases i with
  | select m => exact raisesOnly_of_no_commit rfl
  | write b => exact raisesOnly_byteEv b rsData
  | command op p => exact raisesOnly_cmdEv op p
  | reset =>
    rw [eventsOf, hreset rfl]
    exact raisesOnly_resetBody s.fs s.dc s.em
  | init fs dc em => exact absurd (hc.symm.trans ha) Bool.noConfusion

/-- Settles O17: a request raises only the mask's enables, here none, and its count of events does not depend on the mask. -/
theorem emptyMaskRaisesNoEnable : Obligations.EmptyMaskRaisesNoEnable := by
  intro i s hmask ha hc hreset
  refine ⟨fun b hb => ?_, eventsOf_length i s⟩
  have hraises := raisesOnly_eventsOf ha hc hreset b hb
  rwa [hmask, noMask, or_self] at hraises

end Sys2Proof.Machine
